-- ==== Sys2Proof/Word.lean ====
section
/-! DEFINITION. The words of the engine (00_scope.md R8, R9): the 16-bit word and the 12-bit operand. The signed and unsigned
readings of R9 are `BitVec.toInt` and `BitVec.toNat`. -/

namespace Sys2Proof

/-- A 16-bit pattern: a memory word, a register, a word of an I/O channel (00_scope.md R8, R9). -/
abbrev Word := BitVec 16

/-- The 12-bit operand field of an instruction word (00_scope.md R8, 30_encoding.md R71). -/
abbrev Operand := BitVec 12

/-- The 4-bit opcode field of an instruction word (00_scope.md R8, 30_encoding.md R71). -/
abbrev OpcodeField := BitVec 4

/-- `s16(w)`: the two's-complement reading of a pattern, -32768 to 32767 (00_scope.md R9). -/
abbrev s16 (w : Word) : Int := w.toInt

/-- `u16(n)`: the pattern whose unsigned value is `n mod 65536` (00_scope.md R9). -/
abbrev u16 (n : Int) : Word := BitVec.ofInt 16 n

end Sys2Proof
end

