-- ==== Sys2Proof/Config.lean ====
section
/-! DEFINITION. What is fixed for one engine: the construction parameters of 00_scope.md R6 with their constraints (R7) and
defaults, and the free values that stand for the spec's `unspecified` (R12). -/

namespace Sys2Proof

/-- The fifteen opcodes of 30_encoding.md R72, by mnemonic. ENABLED_OPCODES is a subset of them (R77). -/
inductive Opcode where
  | load | store | add | sub | input | output | halt | skipcond | jmp | call | loadi | ret | storei | push | pop
  deriving DecidableEq, Repr

/-- All fifteen opcodes, the default of ENABLED_OPCODES (00_scope.md R6). -/
def Opcode.all : List Opcode :=
  [.load, .store, .add, .sub, .input, .output, .halt, .skipcond, .jmp, .call, .loadi, .ret, .storei, .push, .pop]

/-- The two values of AC_OVERFLOW (00_scope.md R6, 41_load_store_arith.md R120). -/
inductive OverflowPolicy where
  /-- The result is taken modulo 65536. -/
  | wrap16
  /-- The instruction raises ArithmeticOverflow. -/
  | fault
  deriving DecidableEq, Repr

/-- The construction parameters of one engine instance (00_scope.md R6, the rows marked "parameter"). -/
structure Params where
  /-- MEM_SIZE, in words. -/
  memSize : Nat
  /-- STACK_BASE, a word address. -/
  stackBase : Nat
  /-- START_ADDRESS, a word address. -/
  startAddress : Nat
  /-- AC_OVERFLOW. -/
  acOverflow : OverflowPolicy
  /-- ENABLED_OPCODES. -/
  enabled : List Opcode
  deriving DecidableEq, Repr

/-- The parameters of this hardware: the defaults of 00_scope.md R6. -/
def Params.hardware : Params where
  memSize := 4096
  stackBase := 2000
  startAddress := 0
  acOverflow := .wrap16
  enabled := Opcode.all

/-- The constraints between the parameters (00_scope.md R7), and that the set of opcodes names none twice. -/
def Params.wf (p : Params) : Bool :=
  decide (1 ≤ p.memSize) && decide (p.memSize ≤ 4096) && decide (p.stackBase ≤ p.memSize) &&
    decide (p.startAddress < p.memSize) && decide p.enabled.Nodup

/-- The free values of 00_scope.md R12: the content of a register that the spec calls `unspecified`, the `n`-th value drawn.
It has no body, so nothing can be proved of a value of it. DESIGN CHOICE, safe (log entry 4). -/
opaque Config.freeWord : Nat → Word

end Sys2Proof
end

