-- ==== Sys2Proof/Syntax.lean ====
section
/-! DEFINITION. The instructions: one constructor per row of spec/opcode_table.json (30_encoding.md R72). -/

namespace Sys2Proof

/-- The fifteen instructions. An operand is the whole field x = IR[11:0], used as an unsigned number (30_encoding.md R73); the five
instructions without an operand ignore the field (R74), so their constructors carry none. -/
inductive Instr where
  /-- AC <- Mem[x] (R121). -/
  | load (x : Operand)
  /-- Mem[x] <- AC (R122). -/
  | store (x : Operand)
  /-- AC <- AC + Mem[x] (R123). -/
  | add (x : Operand)
  /-- AC <- AC - Mem[x] (R124). -/
  | sub (x : Operand)
  /-- INPUT <- next pending word, AC <- INPUT (R130). -/
  | input
  /-- OUTPUT <- AC, emitted (R131). -/
  | output
  /-- The run state becomes Halted (R132). -/
  | halt
  /-- Skip one word if AC meets the condition code x (R140). -/
  | skipcond (x : Operand)
  /-- PC <- x (R141). -/
  | jmp (x : Operand)
  /-- Push PC, PC <- x + 1 (R142). -/
  | call (x : Operand)
  /-- AC <- Mem[Mem[x]] (R150). -/
  | loadi (x : Operand)
  /-- Pop into PC (R143). -/
  | ret
  /-- Mem[Mem[x]] <- AC (R151). -/
  | storei (x : Operand)
  /-- Push AC (R160). -/
  | push
  /-- Pop into Mem[x] (R161). -/
  | pop (x : Operand)
  deriving DecidableEq, Repr

/-- The opcode of an instruction (30_encoding.md R72). -/
def Instr.opcode : Instr → Opcode
  | .load _ => .load
  | .store _ => .store
  | .add _ => .add
  | .sub _ => .sub
  | .input => .input
  | .output => .output
  | .halt => .halt
  | .skipcond _ => .skipcond
  | .jmp _ => .jmp
  | .call _ => .call
  | .loadi _ => .loadi
  | .ret => .ret
  | .storei _ => .storei
  | .push => .push
  | .pop _ => .pop

/-- The operand field the assembler writes: the operand, and zero where there is none (30_encoding.md R73, R83). -/
def Instr.operand : Instr → Operand
  | .load x => x
  | .store x => x
  | .add x => x
  | .sub x => x
  | .input => 0
  | .output => 0
  | .halt => 0
  | .skipcond x => x
  | .jmp x => x
  | .call x => x
  | .loadi x => x
  | .ret => 0
  | .storei x => x
  | .push => 0
  | .pop x => x

/-- Whether the instruction uses its operand field (30_encoding.md R73, R74). -/
def Instr.usesOperand : Instr → Bool
  | .input => false
  | .output => false
  | .halt => false
  | .ret => false
  | .push => false
  | .load _ => true
  | .store _ => true
  | .add _ => true
  | .sub _ => true
  | .skipcond _ => true
  | .jmp _ => true
  | .call _ => true
  | .loadi _ => true
  | .storei _ => true
  | .pop _ => true

end Sys2Proof
end

