-- ==== Sys2Proof/WellFormed.lean ====
section
/-! DEFINITION. Which instructions an engine instance has. An operand is 12 bits by its type, so the one check left is that the
opcode is enabled (30_encoding.md R77). -/

namespace Sys2Proof

/-- An instruction is well formed for an engine with parameters `p` if its opcode is in ENABLED_OPCODES (30_encoding.md R77). With the
default parameters every instruction is. -/
def Instr.wellFormed (p : Params) (i : Instr) : Bool :=
  p.enabled.contains i.opcode

end Sys2Proof
end

