-- ==== Sys2Proof/Decode.lean ====
section
/-! DEFINITION. From words to instructions and back (30_encoding.md R70 to R79, R83, R90). -/

namespace Sys2Proof

/-- `op = w[15:12]` (30_encoding.md R71, 40_fetch_decode_execute.md R102). -/
def opcodeField (w : Word) : OpcodeField := w.extractLsb' 12 4

/-- `x = w[11:0]` (30_encoding.md R71, 40_fetch_decode_execute.md R102). -/
def operandField (w : Word) : Operand := w.extractLsb' 0 12

/-- The opcode in its place in the word, `w & 0xF000`: what the decoder compares and an error record reports (R71, R102, R171). -/
def opcodeInPlace (w : Word) : Word := w &&& 0xF000#16

/-- The value of each opcode (the table of 30_encoding.md R72). -/
def Opcode.code : Opcode → OpcodeField
  | .load => 0x1
  | .store => 0x2
  | .add => 0x3
  | .sub => 0x4
  | .input => 0x5
  | .output => 0x6
  | .halt => 0x7
  | .skipcond => 0x8
  | .jmp => 0x9
  | .call => 0xA
  | .loadi => 0xB
  | .ret => 0xC
  | .storei => 0xD
  | .push => 0xE
  | .pop => 0xF

/-- What the decoder answers: an instruction, or "unknown opcode" with the opcode as it stands in the word (30_encoding.md R79). -/
inductive Decoded where
  | instr (i : Instr)
  | unknownOpcode (opcode : Word)
  deriving DecidableEq, Repr

/-- Decode one word: the opcode alone selects the instruction, the operand is the 12 low bits as they are (30_encoding.md R72, R73); the
five instructions without an operand ignore those bits (R74); 0x0 is not in the table (R75). -/
def decodeWord (w : Word) : Decoded :=
  match (opcodeField w).toNat with
  | 0x1 => .instr (.load (operandField w))
  | 0x2 => .instr (.store (operandField w))
  | 0x3 => .instr (.add (operandField w))
  | 0x4 => .instr (.sub (operandField w))
  | 0x5 => .instr .input
  | 0x6 => .instr .output
  | 0x7 => .instr .halt
  | 0x8 => .instr (.skipcond (operandField w))
  | 0x9 => .instr (.jmp (operandField w))
  | 0xA => .instr (.call (operandField w))
  | 0xB => .instr (.loadi (operandField w))
  | 0xC => .instr .ret
  | 0xD => .instr (.storei (operandField w))
  | 0xE => .instr .push
  | 0xF => .instr (.pop (operandField w))
  | _ => .unknownOpcode (opcodeInPlace w)

/-- The word of an instruction, `(op << 12) | operand` (30_encoding.md R83), with the opcode of R72. -/
def encode (i : Instr) : Word :=
  (i.opcode.code.setWidth 16 <<< 12) ||| i.operand.setWidth 16

/-- The instruction that the decoder reads from the table's bits: every row has one 16-bit word (30_encoding.md R70), so a longer
instruction is none, and the bits above `nbits` are zero. -/
def decodeTableWord (nbits w : Nat) : Option Instr :=
  if nbits ≤ 16 then
    match decodeWord (BitVec.ofNat 16 (w % 2 ^ nbits)) with
    | .instr i => some i
    | .unknownOpcode _ => none
  else none

end Sys2Proof
end

