-- ==== Sys2Proof/Machine/State.lean ====
section
/-! DEFINITION. The state of the engine (10_state.md), plain data, and the reasons a step can stop. -/

namespace Sys2Proof.Machine

/-- The memory array (10_state.md R32): the words that are not 0x0000, as pairs of a word address and the word, addresses strictly
rising. The unit is the 16-bit word, the engine has no bytes (20_memory.md R55). DEDUCED, safe (log entry 9). -/
abbrev Memory := List (Nat × Word)

/-- The run-time errors with their records (60_exceptions.md R170, R171). `pc` is the address of the failing instruction, and for a failed
fetch the address that could not be fetched. -/
inductive RunError where
  /-- The fetched word's opcode is 0x0 or not enabled (R172). `opcode` is `IR & 0xF000`. -/
  | unknownOpcode (opcode pc : Word)
  /-- An access outside `0 .. MEM_SIZE-1` (R173). `addr` is the mathematical address, -1 included. -/
  | addressOutOfRange (addr : Int) (pc : Word)
  /-- ADD or SUB under AC_OVERFLOW = fault (R174). `result` is the exact result. -/
  | arithmeticOverflow (result : Int) (pc : Word)
  deriving DecidableEq, Repr

/-- The run state (10_state.md R33). -/
inductive RunState where
  | running
  | halted
  | faulted (e : RunError)
  deriving DecidableEq, Repr

/-- Everything the spec gives the engine (10_state.md R20, R32 to R36), and two fields of the model's own (`params`, `draws`). -/
structure State where
  /-- The accumulator (R21). -/
  ac : Word
  /-- The program counter, a word address (R22). -/
  pc : Word
  /-- The memory address register (R24). -/
  mar : Word
  /-- The memory buffer register, `unspecified` at every boundary (R25). -/
  mbr : Word
  /-- The instruction register (R26). -/
  ir : Word
  /-- The stack pointer, the next free slot (R27). -/
  sp : Word
  /-- The INPUT latch (R28). -/
  inputLatch : Word
  /-- The OUTPUT latch (R28). -/
  outputLatch : Word
  /-- The memory array (R32). -/
  mem : Memory
  /-- The run state (R33). -/
  run : RunState
  /-- The pending input, oldest first (R35). -/
  inputChannel : List Word
  /-- The output so far, oldest first (R36). -/
  outputChannel : List Word
  /-- The model's own: the construction parameters of this instance, which no instruction reads or writes as data (R31, R39; log entry 1). -/
  params : Params
  /-- The model's own: how many free values have been drawn (00_scope.md R12; log entry 4). -/
  draws : Nat
  deriving DecidableEq, Repr

/-- Why there is no next state. None of these is an error of the engine: its errors are run states (60_exceptions.md R176; log entry 8). -/
inductive Fault where
  /-- Raised by the step, on a Halted engine: it has no step (10_state.md R33). Safe (log entry 7). -/
  | engineHalted
  /-- Raised by the step, on a Faulted engine: it has no step (10_state.md R33). Carries the error it stopped on. Safe (log entry 7). -/
  | engineFaulted (e : RunError)
  /-- Raised by INPUT when no word is pending: the "no step" of 40_fetch_decode_execute.md R104 and 42_io_halt.md R130. The engine waits in the
  boundary state before the INPUT until the environment supplies a word (10_state.md R35). Safe (log entry 6). -/
  | inputWait
  deriving DecidableEq, Repr

/-- What the model gives no meaning. -/
inductive Refusal where
  /-- Raised by `exec` for an instruction without a meaning; no arm is left that does. Safe. -/
  | notModelled (mnemonic : String)
  /-- Raised by the loader, never by a step: the program does not fit and the load is refused (70_reset_and_hazards.md R202). Safe. -/
  | programDoesNotFit
  deriving DecidableEq, Repr

/-- The engine right after reset, with nothing loaded (10_state.md R38): memory zero, PC = START_ADDRESS, SP = STACK_BASE, Running, output
empty. AC, MAR, MBR, IR and the latches are `unspecified` there: DESIGN CHOICE zero, unsafe (log entry 2). The input channel is the
environment's: DESIGN CHOICE empty, unsafe (log entry 3). -/
def State.reset : State where
  ac := 0
  pc := BitVec.ofNat 16 Params.hardware.startAddress
  mar := 0
  mbr := 0
  ir := 0
  sp := BitVec.ofNat 16 Params.hardware.stackBase
  inputLatch := 0
  outputLatch := 0
  mem := []
  run := .running
  inputChannel := []
  outputChannel := []
  params := Params.hardware
  draws := 0

end Sys2Proof.Machine
end

