-- ==== Sys2Proof/Machine/Ops.lean ====
section
/-! DEFINITION. The operations every instruction is built from: the memory array with its range check, the registers, the free values, fetch
and decode, raising an error, completing. -/

namespace Sys2Proof.Machine

/-- What a step, an execute phase or a load answers. -/
abbrev Result := Host.Outcome State Fault Refusal

/-! ## The memory array (20_memory.md R50, R51) -/

/-- What an address that is not listed reads as: a word nobody has written since initialisation is 0x0000 (20_memory.md R51). -/
def Memory.unlisted : Word := 0

/-- The word at an address (20_memory.md R51). -/
def Memory.read : Memory → Nat → Word
  | [], _ => Memory.unlisted
  | (b, w) :: m, a => if b = a then w else Memory.read m a

/-- The array without an entry for `a`. -/
def Memory.erase (m : Memory) (a : Nat) : Memory := m.filter fun c => decide (c.1 ≠ a)

/-- Put an entry for `a` before the first entry with a higher address. -/
def Memory.insert : Memory → Nat → Word → Memory
  | [], a, v => [(a, v)]
  | (b, w) :: m, a, v => if a < b then (a, v) :: (b, w) :: m else (b, w) :: Memory.insert m a v

/-- Make `v` the word at `a` and change no other word (20_memory.md R51). Writing 0x0000 removes the entry, so the form stays canonical. -/
def Memory.write (m : Memory) (a : Nat) (v : Word) : Memory :=
  if v = Memory.unlisted then Memory.erase m a else Memory.insert (Memory.erase m a) a v

/-- Addresses strictly rising from `lo` on, and no entry equal to what an unlisted address reads as. -/
def Memory.wfFrom : Nat → Memory → Bool
  | _, [] => true
  | lo, (a, v) :: m => decide (lo ≤ a) && decide (v ≠ Memory.unlisted) && Memory.wfFrom (a + 1) m

/-- The canonical form of the array. -/
def Memory.wf (m : Memory) : Bool := Memory.wfFrom 0 m

/-- Every listed address lies in an array of `n` words (10_state.md R32). -/
def Memory.below (n : Nat) (m : Memory) : Bool := m.all fun c => decide (c.1 < n)

/-- Consecutive words from an address on (70_reset_and_hazards.md R202). -/
def Memory.writeAll : Memory → Nat → List Word → Memory
  | m, _, [] => m
  | m, a, w :: ws => Memory.writeAll (Memory.write m a w) (a + 1) ws

/-! ## Registers, latches, channels -/

/-- AC <- v. -/
def State.setAc (s : State) (v : Word) : State := { s with ac := v }

/-- PC <- v. -/
def State.setPc (s : State) (v : Word) : State := { s with pc := v }

/-- SP <- v. -/
def State.setSp (s : State) (v : Word) : State := { s with sp := v }

/-- MAR <- v. -/
def State.setMar (s : State) (v : Word) : State := { s with mar := v }

/-- Mem[a] <- v, the address already checked (20_memory.md R51). -/
def State.writeMem (s : State) (a : Nat) (v : Word) : State := { s with mem := Memory.write s.mem a v }

/-- The pending input loses its first word `w`, `rest` stays, and the word goes into the INPUT latch (42_io_halt.md R130). -/
def State.latchInput (s : State) (w : Word) (rest : List Word) : State := { s with inputLatch := w, inputChannel := rest }

/-- The OUTPUT latch takes `v`, and `v` is appended to the output (42_io_halt.md R131, 10_state.md R36). -/
def State.emitOutput (s : State) (v : Word) : State := { s with outputLatch := v, outputChannel := s.outputChannel ++ [v] }

/-- The run state becomes `r` (10_state.md R33). -/
def State.setRun (s : State) (r : RunState) : State := { s with run := r }

/-! ## Free values (00_scope.md R12) -/

/-- MBR <- unspecified (10_state.md R25, 40_fetch_decode_execute.md R104). DESIGN CHOICE, safe (log entry 4). -/
def State.scratchMbr (s : State) : State := { s with mbr := Config.freeWord s.draws, draws := s.draws + 1 }

/-- MAR <- unspecified ; MBR <- unspecified, after JMP, CALL and RET (10_state.md R24). DESIGN CHOICE, safe (log entry 4). -/
def State.scratchMarMbr (s : State) : State :=
  { s with mar := Config.freeWord s.draws, mbr := Config.freeWord (s.draws + 1), draws := s.draws + 2 }

/-! ## How an instruction ends -/

/-- The instruction has completed; MBR is left `unspecified` (40_fetch_decode_execute.md R104). -/
def complete (s : State) : Result := .next s.scratchMbr

/-- A control transfer has completed; MAR and MBR are left `unspecified` (40_fetch_decode_execute.md R104). -/
def completeTransfer (s : State) : Result := .next s.scratchMarMbr

/-- `raise E(info)`: taking an error (60_exceptions.md R176). The run state becomes Faulted with the record; nothing else is saved, no
handler is entered, and nothing returns from it (R180). It is given the state that fetch and decode left, so no execute-phase write stands
(R177). MBR is `unspecified` as at every boundary (R25; log entry 5). -/
def raise (e : RunError) (s : State) : Result := .next (s.scratchMbr.setRun (.faulted e))

/-- The address of the instruction in its execute phase, `PC - 1` (60_exceptions.md R171). -/
def State.instrPc (s : State) : Word := s.pc - 1

/-! ## The range check (20_memory.md R53) -/

/-- `0 <= a < MEM_SIZE`, on the mathematical address. -/
def State.inRange (s : State) (a : Int) : Bool := decide (0 ≤ a) && decide (a < (s.params.memSize : Int))

/-- `MemRead(a, 1)` in an execute phase: the word, or `raise AddressOutOfRange(a)` (20_memory.md R53, 00_scope.md R10). -/
def onRead (s : State) (a : Int) (k : Word → Result) : Result :=
  if s.inRange a then k (Memory.read s.mem a.toNat) else raise (.addressOutOfRange a s.instrPc) s

/-- `MemWrite(a, 1, v)` in an execute phase: the state with the word written, or `raise AddressOutOfRange(a)` with nothing written
(20_memory.md R53, 00_scope.md R10). -/
def onWrite (s : State) (a : Int) (v : Word) (k : State → Result) : Result :=
  if s.inRange a then k (s.writeMem a.toNat v) else raise (.addressOutOfRange a s.instrPc) s

/-! ## Fetch and decode (40_fetch_decode_execute.md R101, R102) -/

/-- The word the next fetch reads, if PC is in range (R101). -/
def State.fetchWord (s : State) : Option Word :=
  if s.pc.toNat < s.params.memSize then some (Memory.read s.mem s.pc.toNat) else none

/-- The state after the fetch and decode of the word `w`: MAR <- PC; IR <- w; PC <- PC + 1; MAR <- IR & 0x0FFF (R101, R102). -/
def State.fetched (s : State) (w : Word) : State :=
  { s with ir := w, pc := s.pc + 1, mar := (operandField w).setWidth 16 }

/-- A failed fetch: MAR <- PC stands, IR and PC are as before, and the record names the address that could not be fetched (R101, 60_exceptions.md
R171). -/
def raiseFetch (s : State) : Result := raise (.addressOutOfRange s.pc.toNat s.pc) (s.setMar s.pc)

/-- No unit runs: `raise UnknownOpcode(IR & 0xF000, PC - 1)` in the state that fetch and decode left (40_fetch_decode_execute.md R103, 60_exceptions.md
R172). -/
def raiseUnknownOpcode (s : State) : Result := raise (.unknownOpcode (opcodeInPlace s.ir) s.instrPc) s

end Sys2Proof.Machine
end

