-- ==== Sys2Proof/Machine/Flags.lean ====
section
/-! DEFINITION. The engine has no flags (10_state.md R30). What other machines keep in flags is here: the test that SKIPCOND makes of AC
itself (43_control.md R140), and what ADD and SUB do with a result that does not fit (41_load_store_arith.md R120). -/

namespace Sys2Proof.Machine

/-- Whether SKIPCOND with condition code `x` skips: the whole 12-bit field is compared with 0x000, 0x400 and 0x800, and any other code is a
no-op (43_control.md R140, 30_encoding.md R76). -/
def skips (x : Operand) (ac : Word) : Bool :=
  if x = 0x000#12 then decide (s16 ac < 0)
  else if x = 0x400#12 then decide (s16 ac = 0)
  else if x = 0x800#12 then decide (0 < s16 ac)
  else false

/-- The exact sum of ADD (41_load_store_arith.md R120). -/
def exactSum (ac w : Word) : Int := s16 ac + s16 w

/-- The exact difference of SUB, AC minus memory (41_load_store_arith.md R120, R124). -/
def exactDifference (ac w : Word) : Int := s16 ac - s16 w

/-- Whether an exact result is a 16-bit signed number (41_load_store_arith.md R120). -/
def fits16 (r : Int) : Bool := decide (-32768 ≤ r) && decide (r ≤ 32767)

/-- AC takes an exact result: as it is where it fits, and otherwise as AC_OVERFLOW says, modulo 65536 or `raise ArithmeticOverflow(r)` with AC
unchanged (41_load_store_arith.md R120, 60_exceptions.md R174). -/
def accumulate (r : Int) (s : State) : Result :=
  if fits16 r then complete (s.setAc (u16 r))
  else
    match s.params.acOverflow with
    | .wrap16 => complete (s.setAc (u16 r))
    | .fault => raise (.arithmeticOverflow r s.instrPc) s

end Sys2Proof.Machine
end

