-- ==== Sys2Proof/Machine/Operands.lean ====
section
/-! DEFINITION. The addresses an instruction computes: the three addressing modes of 44_indirect.md (direct, memory-indirect, stack), on
mathematical integers, without wrap and without mask (20_memory.md R50). -/

namespace Sys2Proof.Machine

/-- Direct: the operand as a word address, 0 to 4095 (30_encoding.md R73). -/
def directAddress (x : Operand) : Int := x.toNat

/-- Memory-indirect: a pointer word, all 16 bits, unsigned, not masked (44_indirect.md R150). -/
def pointerAddress (p : Word) : Int := p.toNat

/-- Where a push writes: Mem[SP] (10_state.md R27). -/
def pushAddress (s : State) : Int := s.sp.toNat

/-- Where a pop reads: Mem[SP - 1], which is -1 for SP = 0 (10_state.md R27, 20_memory.md R54). -/
def popAddress (s : State) : Int := s.sp.toNat - 1

/-- An operand as a jump target, `zext_16(x)` (43_control.md R141). -/
def targetAddress (x : Operand) : Word := x.setWidth 16

/-- The first dereference of LOADI and STOREI: read the pointer word at the operand address and go on with the effective address
(44_indirect.md R150, R151). -/
def onPointer (s : State) (x : Operand) (k : Int → Result) : Result :=
  onRead s (directAddress x) fun p => k (pointerAddress p)

/-- Push a word: Mem[SP] <- v, SP <- SP + 1, the range check before either (43_control.md R142, 45_stack.md R160). -/
def onPush (s : State) (v : Word) (k : State → Result) : Result :=
  onWrite s (pushAddress s) v fun t => k (t.setSp (s.sp + 1))

end Sys2Proof.Machine
end

