-- ==== Sys2Proof/Machine/Control.lean ====
section
/-! DEFINITION. The execute phases of SKIPCOND, JMP, CALL and RET (43_control.md). Fetch has already incremented PC. -/

namespace Sys2Proof.Machine

/-- SKIPCOND: PC <- PC + 1 if AC meets the condition code (R140). -/
def execSkipcond (x : Operand) (s : State) : Result :=
  complete (if skips x s.ac then s.setPc (s.pc + 1) else s)

/-- JMP: PC <- zext_16(x) (R141). -/
def execJmp (x : Operand) (s : State) : Result := completeTransfer (s.setPc (targetAddress x))

/-- CALL: push the return address PC, then PC <- zext_16(x) + 1 (R142). -/
def execCall (x : Operand) (s : State) : Result :=
  onPush s s.pc fun t => completeTransfer (t.setPc (targetAddress x + 1))

/-- RET: PC <- Mem[SP - 1], all 16 bits; SP <- SP - 1 (R143). -/
def execRet (s : State) : Result :=
  onRead s (popAddress s) fun w => completeTransfer ((s.setPc w).setSp (s.sp - 1))

end Sys2Proof.Machine
end

