-- ==== Sys2Proof/Machine/Indirect.lean ====
section
/-! DEFINITION. The execute phases of LOADI and STOREI (44_indirect.md). -/

namespace Sys2Proof.Machine

/-- LOADI: AC <- Mem[u(Mem[x])] (R150). -/
def execLoadi (x : Operand) (s : State) : Result :=
  onPointer s x fun ea => onRead s ea fun w => complete (s.setAc w)

/-- STOREI: Mem[u(Mem[x])] <- AC (R151). -/
def execStorei (x : Operand) (s : State) : Result :=
  onPointer s x fun ea => onWrite s ea s.ac fun t => complete t

end Sys2Proof.Machine
end

