-- ==== Sys2Proof/Machine/InputOutputHalt.lean ====
section
/-! DEFINITION. The execute phases of INPUT, OUTPUT and HALT (42_io_halt.md). -/

namespace Sys2Proof.Machine

/-- INPUT, enabled only if the pending input is not empty: INPUT <- InputNext(), AC <- INPUT (R130). On an empty channel it has no step:
the engine waits at the boundary before the instruction (10_state.md R35; log entry 6). -/
def execInput (s : State) : Result :=
  match s.inputChannel with
  | [] => .fault .inputWait
  | w :: rest => complete ((s.latchInput w rest).setAc w)

/-- OUTPUT: OUTPUT <- AC, and the word is emitted (R131). -/
def execOutput (s : State) : Result := complete (s.emitOutput s.ac)

/-- HALT: the run state becomes Halted (R132). -/
def execHalt (s : State) : Result := complete (s.setRun .halted)

end Sys2Proof.Machine
end

