-- ==== Sys2Proof/Machine/LoadStoreArith.lean ====
section
/-! DEFINITION. The execute phases of LOAD, STORE, ADD and SUB (41_load_store_arith.md). -/

namespace Sys2Proof.Machine

/-- LOAD: AC <- Mem[x] (R121). -/
def execLoad (x : Operand) (s : State) : Result :=
  onRead s (directAddress x) fun w => complete (s.setAc w)

/-- STORE: Mem[x] <- AC (R122). -/
def execStore (x : Operand) (s : State) : Result :=
  onWrite s (directAddress x) s.ac fun t => complete t

/-- ADD: AC <- AC + Mem[x] by the law of R120 (R123). -/
def execAdd (x : Operand) (s : State) : Result :=
  onRead s (directAddress x) fun w => accumulate (exactSum s.ac w) s

/-- SUB: AC <- AC - Mem[x] by the law of R120 (R124). -/
def execSub (x : Operand) (s : State) : Result :=
  onRead s (directAddress x) fun w => accumulate (exactDifference s.ac w) s

end Sys2Proof.Machine
end

