-- ==== Sys2Proof/Machine/Stack.lean ====
section
/-! DEFINITION. The execute phases of PUSH and POP (45_stack.md). -/

namespace Sys2Proof.Machine

/-- PUSH: Mem[SP] <- AC, SP <- SP + 1 (R160). -/
def execPush (s : State) : Result := onPush s s.ac fun t => complete t

/-- POP: Mem[x] <- Mem[SP - 1], SP <- SP - 1, AC unchanged; both addresses are checked before anything is written (R161, 60_exceptions.md R177). -/
def execPop (x : Operand) (s : State) : Result :=
  onRead s (popAddress s) fun w => onWrite s (directAddress x) w fun t => complete (t.setSp (s.sp - 1))

end Sys2Proof.Machine
end

