-- ==== Sys2Proof/Machine/Dispatch.lean ====
section
/-! DEFINITION. The dispatch table of 40_fetch_decode_execute.md R103: the execute phase of each instruction, run in the state that fetch and
decode left. -/

namespace Sys2Proof.Machine

/-- The execute phase of an instruction: exactly one of the fifteen units runs, chosen by the opcode alone (R103). -/
def exec (i : Instr) (s : State) : Host.Outcome State Fault Refusal :=
  match i with
  | .load x => Sys2Proof.Machine.execLoad x s
  | .store x => Sys2Proof.Machine.execStore x s
  | .add x => Sys2Proof.Machine.execAdd x s
  | .sub x => Sys2Proof.Machine.execSub x s
  | .input => Sys2Proof.Machine.execInput s
  | .output => Sys2Proof.Machine.execOutput s
  | .halt => Sys2Proof.Machine.execHalt s
  | .skipcond x => Sys2Proof.Machine.execSkipcond x s
  | .jmp x => Sys2Proof.Machine.execJmp x s
  | .call x => Sys2Proof.Machine.execCall x s
  | .loadi x => Sys2Proof.Machine.execLoadi x s
  | .ret => Sys2Proof.Machine.execRet s
  | .storei x => Sys2Proof.Machine.execStorei x s
  | .push => Sys2Proof.Machine.execPush s
  | .pop x => Sys2Proof.Machine.execPop x s

end Sys2Proof.Machine
end

