-- ==== Sys2Proof/Machine/Cycle.lean ====
section
/-! DEFINITION. The fetch-decode-execute cycle as one function (40_fetch_decode_execute.md R104), and the placing of one instruction word where
the next fetch reads it. -/

namespace Sys2Proof.Machine

/-- Execute (R103): the unit of the decoded instruction if its opcode is enabled, and otherwise `raise UnknownOpcode`. `s` is the boundary
state, `w` the fetched word. Where the unit has no step (INPUT with no word pending, R104), neither has the engine. -/
def execute (s : State) (w : Word) : Result :=
  match decodeWord w with
  | .unknownOpcode _ => raiseUnknownOpcode (s.fetched w)
  | .instr i => if i.wellFormed s.params then exec i (s.fetched w) else raiseUnknownOpcode (s.fetched w)

/-- One turn of the loop of a Running engine: fetch, decode, execute (R100, R104). -/
def cycle (s : State) : Result :=
  match s.fetchWord with
  | none => raiseFetch s
  | some w => execute s w

/-- The step of the engine: only a Running engine has one (10_state.md R33). -/
def engineStep (s : State) : Result :=
  match s.run with
  | .running => cycle s
  | .halted => .fault .engineHalted
  | .faulted e => .fault (.engineFaulted e)

/-- The word of `nbits` bits placed at PC, where the next fetch reads it; nothing where PC is out of range, since no fetch succeeds there
(log entry 17). -/
def placeAtPc (s : State) (nbits w : Nat) : State :=
  if s.pc.toNat < s.params.memSize then s.writeMem s.pc.toNat (BitVec.ofNat 16 (w % 2 ^ nbits)) else s

end Sys2Proof.Machine
end

