-- ==== Sys2Proof/Machine/Step.lean ====
section
/-! DEFINITION. The step of the engine. -/

namespace Sys2Proof.Machine

/-- One whole instruction (00_scope.md R11, 40_fetch_decode_execute.md R104). -/
def step (s : State) : Host.Outcome State Fault Refusal := engineStep s

/-- `s` with one instruction word stored where the step fetches its next instruction. -/
def State.withFetchWord (s : State) (nbits w : Nat) : State := placeAtPc s nbits w

end Sys2Proof.Machine
end

