-- ==== Sys2Proof/Machine/Environment.lean ====
section
/-! DEFINITION. What the environment does to the engine between steps: initialise, load and start a program (70_reset_and_hazards.md R200 to R204),
supply a word of input (10_state.md R35). -/

namespace Sys2Proof.Machine

/-- Initialisation, the only reset (70_reset_and_hazards.md R200, R201): memory all zero, SP = STACK_BASE, Running, output empty; AC, MAR, MBR, IR and
the two latches `unspecified`, each a free value. The input channel is the environment's and PC is the loader's. -/
def State.initialise (s : State) : State :=
  { s with
    mem := []
    sp := BitVec.ofNat 16 s.params.stackBase
    run := .running
    outputChannel := []
    ac := Config.freeWord s.draws
    mar := Config.freeWord (s.draws + 1)
    mbr := Config.freeWord (s.draws + 2)
    ir := Config.freeWord (s.draws + 3)
    inputLatch := Config.freeWord (s.draws + 4)
    outputLatch := Config.freeWord (s.draws + 5)
    draws := s.draws + 6 }

/-- Loading and start (70_reset_and_hazards.md R202, R203): the buffer is copied from START_ADDRESS on and PC <- START_ADDRESS; a buffer that does not
fit is refused and the engine does not start. -/
def State.load (s : State) (buffer : List Word) : Result :=
  if s.params.startAddress + buffer.length ≤ s.params.memSize then
    .next ({ s with mem := Memory.writeAll s.mem s.params.startAddress buffer }.setPc (BitVec.ofNat 16 s.params.startAddress))
  else .refused .programDoesNotFit

/-- The order of a run up to its first step (70_reset_and_hazards.md R204): initialise, load, set PC. -/
def State.start (s : State) (buffer : List Word) : Result := s.initialise.load buffer

/-- The environment appends a word to the pending input (10_state.md R35). -/
def State.supplyInput (s : State) (w : Word) : State := { s with inputChannel := s.inputChannel ++ [w] }

end Sys2Proof.Machine
end

