-- ==== Sys2Proof/Safety.lean ====
section
/-! DEFINITION. The words that claims about the engine are made in: the invariant, what is left unchanged, an error stop, and what a program can
observe. -/

namespace Sys2Proof.Machine

/-- The invariant of the engine: the parameters meet their constraints (00_scope.md R7), the memory array is in its canonical form and lists
nothing outside `0 .. MEM_SIZE-1` (10_state.md R32), and SP lies in `0 .. MEM_SIZE` (10_state.md R27). -/
abbrev State.Inv (s : State) : Prop :=
  s.params.wf = true ∧ Memory.wf s.mem = true ∧ Memory.below s.params.memSize s.mem = true ∧
    s.sp.toNat ≤ s.params.memSize

/-- A safe run never reaches a state in which the engine has stopped on an error (60_exceptions.md R176). -/
def State.safe (s : State) : Bool :=
  match s.run with
  | .running => true
  | .halted => true
  | .faulted _ => false

/-- Every word of memory reads as before. -/
def KeepsMemory (s t : State) : Prop := ∀ b, Memory.read t.mem b = Memory.read s.mem b

/-- Every word of memory but the one at `a` reads as before. -/
def KeepsMemoryBut (a : Nat) (s t : State) : Prop := ∀ b, b ≠ a → Memory.read t.mem b = Memory.read s.mem b

/-- Both latches and both channels are as before. -/
def KeepsChannels (s t : State) : Prop :=
  t.inputLatch = s.inputLatch ∧ t.outputLatch = s.outputLatch ∧ t.inputChannel = s.inputChannel ∧
    t.outputChannel = s.outputChannel

/-- IR, MAR, the run state and the construction parameters are as before. -/
def KeepsControl (s t : State) : Prop :=
  t.ir = s.ir ∧ t.mar = s.mar ∧ t.run = s.run ∧ t.params = s.params

/-- The execute phase of `i` in `s` stops the engine on an access to the address `a`, with AC, PC, SP, memory, the latches and the channels
as they were (20_memory.md R53, 60_exceptions.md R173). -/
def StopsOnAddress (i : Instr) (s : State) (a : Int) : Prop :=
  ∃ t pc, exec i s = .next t ∧ t.run = .faulted (.addressOutOfRange a pc) ∧ t.ac = s.ac ∧ t.pc = s.pc ∧ t.sp = s.sp ∧
    KeepsMemory s t ∧ KeepsChannels s t

/-- A Running engine whose next fetch stops it on the address in PC (10_state.md R23). -/
def FailsAtNextFetch (t : State) : Prop :=
  t.run = .running → ∃ u pc, step t = .next u ∧ u.run = .faulted (.addressOutOfRange t.pc.toNat pc)

/-- Two states that no program and no environment can tell apart while the engine runs: they differ at most in MAR, MBR and IR, which no
instruction reads as data (00_scope.md R12, 60_exceptions.md R182), and in the counter of free values. -/
def SameButScratch (s t : State) : Prop :=
  t.ac = s.ac ∧ t.pc = s.pc ∧ t.sp = s.sp ∧ t.mem = s.mem ∧ t.run = s.run ∧ t.params = s.params ∧ KeepsChannels s t

/-- What an instruction that completes adds to SP: one for PUSH and CALL, minus one for POP and RET, otherwise nothing (45_stack.md R162). -/
def spDelta : Instr → Int
  | .push => 1
  | .call _ => 1
  | .pop _ => -1
  | .ret => -1
  | .load _ => 0
  | .store _ => 0
  | .add _ => 0
  | .sub _ => 0
  | .input => 0
  | .output => 0
  | .halt => 0
  | .skipcond _ => 0
  | .jmp _ => 0
  | .loadi _ => 0
  | .storei _ => 0

end Sys2Proof.Machine
end

