-- ==== Sys2Proof/Certificates/Slice0/Obligations.lean ====
section
/-! DEFINITION. The statements for the provers, each a rule of spec/ or what follows from its rules. In a statement about `exec`, `s` is the state
that fetch and decode left: PC is the address after the instruction, IR its word, MAR its operand (40_fetch_decode_execute.md R101, R102). No
statement says what MBR holds after an instruction, since its content is a free value there (10_state.md R25). -/

open Sys2Proof Sys2Proof.Machine

/-! ## Encoding -/

/-- Decoding the word of any instruction gives it back, with its opcode in `word >> 12` and its operand in `word & 0x0FFF`. -/
def Obligations.DecodeOfEncodeIsTheInstruction : Prop :=
  ∀ i : Instr,
    decodeWord (encode i) = .instr i ∧
    decodeTableWord 16 (encode i).toNat = some i ∧
    encode i >>> 12 = i.opcode.code.setWidth 16 ∧
    encode i &&& 0x0FFF#16 = i.operand.setWidth 16

/-- Encoding what a word decodes to gives the word back, less the operand bits of the five instructions that ignore them (log entry 14). -/
def Obligations.EncodeOfDecodedWordIsTheWord : Prop :=
  ∀ (w : Word) (i : Instr), decodeWord w = .instr i →
    opcodeField w = i.opcode.code ∧
    (i.usesOperand = true → encode i = w ∧ i.operand = operandField w) ∧
    (i.usesOperand = false → encode i = w &&& 0xF000#16 ∧ i.operand = 0)

/-- The opcode map: every word of each of the sixteen opcode values. -/
def Obligations.OpcodeAloneSelectsTheInstruction : Prop :=
  (∀ x : Operand,
    decodeWord (0x0000#16 ||| x.setWidth 16) = .unknownOpcode 0x0000#16 ∧
    decodeWord (0x1000#16 ||| x.setWidth 16) = .instr (.load x) ∧
    decodeWord (0x2000#16 ||| x.setWidth 16) = .instr (.store x) ∧
    decodeWord (0x3000#16 ||| x.setWidth 16) = .instr (.add x) ∧
    decodeWord (0x4000#16 ||| x.setWidth 16) = .instr (.sub x) ∧
    decodeWord (0x5000#16 ||| x.setWidth 16) = .instr .input ∧
    decodeWord (0x6000#16 ||| x.setWidth 16) = .instr .output ∧
    decodeWord (0x7000#16 ||| x.setWidth 16) = .instr .halt ∧
    decodeWord (0x8000#16 ||| x.setWidth 16) = .instr (.skipcond x) ∧
    decodeWord (0x9000#16 ||| x.setWidth 16) = .instr (.jmp x) ∧
    decodeWord (0xA000#16 ||| x.setWidth 16) = .instr (.call x) ∧
    decodeWord (0xB000#16 ||| x.setWidth 16) = .instr (.loadi x) ∧
    decodeWord (0xC000#16 ||| x.setWidth 16) = .instr .ret ∧
    decodeWord (0xD000#16 ||| x.setWidth 16) = .instr (.storei x) ∧
    decodeWord (0xE000#16 ||| x.setWidth 16) = .instr .push ∧
    decodeWord (0xF000#16 ||| x.setWidth 16) = .instr (.pop x)) ∧
  (∀ w : Word, (∃ i, decodeWord w = .instr i) ↔ opcodeField w ≠ 0)

/-- Words written out from the patterns of the opcode table decode to the instructions they stand for. -/
def Obligations.WordsWrittenOutDecode : Prop :=
  decodeWord 0b0001000000010000#16 = .instr (.load 0x010#12) ∧
  decodeWord 0b0100101010111100#16 = .instr (.sub 0xABC#12) ∧
  decodeWord 0b0111101010111100#16 = .instr .halt ∧
  decodeWord 0b1000010000000000#16 = .instr (.skipcond 0x400#12) ∧
  decodeWord 0b1010000100100011#16 = .instr (.call 0x123#12) ∧
  decodeWord 0b1011101010111100#16 = .instr (.loadi 0xABC#12) ∧
  decodeWord 0b1100101010111100#16 = .instr .ret ∧
  decodeWord 0b1111000000110000#16 = .instr (.pop 0x030#12) ∧
  decodeWord 0b0000000100100011#16 = .unknownOpcode 0x0000#16

/-! ## The step -/

/-- A Running engine whose word at PC decodes to an enabled instruction runs its execute phase in the state that fetch and decode leave, and the
step answers what that phase answers: a next state, or for INPUT with nothing pending no step (a named fault, log entry 6). -/
def Obligations.StepRunsTheDecodedInstruction : Prop :=
  ∀ (s : State) (i : Instr),
    s.run = .running → s.pc.toNat < s.params.memSize →
    decodeWord (Memory.read s.mem s.pc.toNat) = .instr i → i.wellFormed s.params = true →
    ∃ u : State,
      u.ir = Memory.read s.mem s.pc.toNat ∧ u.pc = s.pc + 1 ∧
      u.mar = (operandField (Memory.read s.mem s.pc.toNat)).setWidth 16 ∧
      u.ac = s.ac ∧ u.mbr = s.mbr ∧ u.sp = s.sp ∧ u.mem = s.mem ∧ u.run = s.run ∧ u.params = s.params ∧
      u.draws = s.draws ∧ KeepsChannels s u ∧ step s = exec i u

/-- A fetch at an address outside the memory stops the engine with MAR and the record naming that address, and IR and PC as before (the
spec's decision D14; the record's fields are D15). -/
def Obligations.FetchOutOfRangeStops : Prop :=
  ∀ s : State, s.run = .running → s.params.memSize ≤ s.pc.toNat →
    ∃ t, step s = .next t ∧ t.run = .faulted (.addressOutOfRange s.pc.toNat s.pc) ∧
      t.mar = s.pc ∧ t.pc = s.pc ∧ t.ir = s.ir ∧ t.ac = s.ac ∧ t.sp = s.sp ∧ t.params = s.params ∧
      KeepsMemory s t ∧ KeepsChannels s t

/-- A word whose opcode is 0x0, or is not in ENABLED_OPCODES, stops the engine with `UnknownOpcode`, the opcode in its place and the word's
address; fetch and decode have made their writes and nothing else has changed (MBR aside, log entry 5; the record's pc is D15, the disabled
opcodes are D2). -/
def Obligations.UnknownOpcodeStops : Prop :=
  ∀ (s : State) (w : Word),
    s.run = .running → s.pc.toNat < s.params.memSize → w = Memory.read s.mem s.pc.toNat →
    (opcodeField w = 0 ∨ ∃ o : Opcode, opcodeField w = o.code ∧ s.params.enabled.contains o = false) →
    ∃ t, step s = .next t ∧ t.run = .faulted (.unknownOpcode (w &&& 0xF000#16) s.pc) ∧
      t.ir = w ∧ t.mar = (operandField w).setWidth 16 ∧ t.pc = s.pc + 1 ∧
      t.ac = s.ac ∧ t.sp = s.sp ∧ t.params = s.params ∧ KeepsMemory s t ∧ KeepsChannels s t

/-- Halted and Faulted engines have no step. -/
def Obligations.StoppedEngineHasNoStep : Prop :=
  ∀ s : State,
    (s.run = .halted → step s = .fault .engineHalted) ∧
    (∀ e, s.run = .faulted e → step s = .fault (.engineFaulted e))

/-- The outcomes of a step: a Running engine has no step (a named fault, log entry 6) exactly where the word at PC is an enabled INPUT and no word
is pending, and otherwise it answers a next state. -/
def Obligations.RunningEngineHasNoStepOnlyToWait : Prop :=
  ∀ s : State, s.run = .running →
    (step s = .fault .inputWait ↔
      s.pc.toNat < s.params.memSize ∧ opcodeField (Memory.read s.mem s.pc.toNat) = 0x5#4 ∧
        s.params.enabled.contains .input = true ∧ s.inputChannel = []) ∧
    (step s ≠ .fault .inputWait → ∃ t, step s = .next t)

/-- Errors are precise: in a state that a step reaches by an error, AC, SP, memory, the latches and the channels are as before the step, and
IR, PC and MAR are what a failed fetch, or a completed fetch and decode, leaves (the spec's decisions D13, D14). -/
def Obligations.ErrorsArePrecise : Prop :=
  ∀ (s t : State) (e : RunError),
    s.run = .running → step s = .next t → t.run = .faulted e →
    t.ac = s.ac ∧ t.sp = s.sp ∧ t.params = s.params ∧ KeepsMemory s t ∧ KeepsChannels s t ∧
    (s.params.memSize ≤ s.pc.toNat ∧ t.mar = s.pc ∧ t.pc = s.pc ∧ t.ir = s.ir ∨
     s.pc.toNat < s.params.memSize ∧ t.ir = Memory.read s.mem s.pc.toNat ∧ t.pc = s.pc + 1 ∧
       t.mar = (operandField t.ir).setWidth 16)

/-- The errors a step can raise, and their records: AddressOutOfRange of a fetch; UnknownOpcode; AddressOutOfRange of an instruction that accesses
memory; ArithmeticOverflow of ADD and SUB, only under AC_OVERFLOW = fault. The record's pc is the address of the instruction (the spec's
decision D15). -/
def Obligations.ErrorsAreTheListedOnes : Prop :=
  ∀ (s t : State) (e : RunError),
    s.run = .running → step s = .next t → t.run = .faulted e →
    (e = .addressOutOfRange s.pc.toNat s.pc ∧ s.params.memSize ≤ s.pc.toNat) ∨
    (s.pc.toNat < s.params.memSize ∧
      ((e = .unknownOpcode (opcodeInPlace (Memory.read s.mem s.pc.toNat)) s.pc ∧
          ∀ i, decodeWord (Memory.read s.mem s.pc.toNat) = .instr i → i.wellFormed s.params = false) ∨
       (∃ i, decodeWord (Memory.read s.mem s.pc.toNat) = .instr i ∧ i.wellFormed s.params = true ∧
          ((∃ a : Int, e = .addressOutOfRange a s.pc ∧ (a < 0 ∨ (s.params.memSize : Int) ≤ a) ∧
              i ≠ .input ∧ i ≠ .output ∧ i ≠ .halt ∧ (∀ x, i ≠ .skipcond x) ∧ (∀ x, i ≠ .jmp x)) ∨
           (∃ r : Int, e = .arithmeticOverflow r s.pc ∧ s.params.acOverflow = .fault ∧ (r < -32768 ∨ 32767 < r) ∧
              ((∃ x, i = .add x) ∨ (∃ x, i = .sub x)))))))

/-- With 4096 words the range check fails only for a fetch at 4096 or above, a push at SP = 4096, a pop at SP = 0, and a pointer of 4096 or
above. -/
def Obligations.RangeCheckFailsOnlyInListedCases : Prop :=
  ∀ (s t : State) (a : Int) (pc : Word),
    s.run = .running → s.params.memSize = 4096 → s.sp.toNat ≤ 4096 →
    step s = .next t → t.run = .faulted (.addressOutOfRange a pc) →
    (4096 ≤ s.pc.toNat ∧ a = s.pc.toNat) ∨
    (∃ i, decodeWord (Memory.read s.mem s.pc.toNat) = .instr i ∧
      (((i = .push ∨ ∃ x, i = .call x) ∧ s.sp.toNat = 4096 ∧ a = 4096) ∨
       ((i = .ret ∨ ∃ x, i = .pop x) ∧ s.sp.toNat = 0 ∧ a = -1) ∨
       (∃ x, (i = .loadi x ∨ i = .storei x) ∧ 4096 ≤ (Memory.read s.mem x.toNat).toNat ∧
          a = (Memory.read s.mem x.toNat).toNat)))

/-! ## Invariants and rules of the whole machine -/

/-- Every step keeps the invariant: parameter constraints, canonical memory inside `0 .. MEM_SIZE-1`, SP in `0 .. MEM_SIZE`. -/
def Obligations.StepKeepsTheInvariant : Prop :=
  ∀ s t : State, s.Inv → step s = .next t → t.Inv

/-- The reset state meets the invariant. -/
def Obligations.ResetMeetsTheInvariant : Prop := State.reset.Inv

/-- A started engine meets the invariant, whatever state it was initialised from, if its parameters meet their constraints. -/
def Obligations.StartedEngineMeetsTheInvariant : Prop :=
  ∀ (s t : State) (buffer : List Word),
    s.params.wf = true → s.start buffer = .next t → t.Inv ∧ t.run = .running

/-- The boundary invariant: after an instruction IR's high four bits are its opcode, and MAR is IR & 0x0FFF except after JMP, CALL and RET. -/
def Obligations.IrAndMarAtTheBoundary : Prop :=
  ∀ (s t : State) (i : Instr),
    s.run = .running → s.pc.toNat < s.params.memSize →
    decodeWord (Memory.read s.mem s.pc.toNat) = .instr i → i.wellFormed s.params = true → step s = .next t →
    opcodeField t.ir = i.opcode.code ∧
    ((∀ x, i ≠ .jmp x) → (∀ x, i ≠ .call x) → i ≠ .ret → t.mar = t.ir &&& 0x0FFF#16)

/-- AC is written by LOAD, LOADI, ADD, SUB and INPUT and by nothing else (that POP leaves it is the spec's decision D12, log entry 12). -/
def Obligations.OnlyFiveInstructionsWriteAc : Prop :=
  ∀ (i : Instr) (s t : State), exec i s = .next t →
    (∀ x, i ≠ .load x) → (∀ x, i ≠ .loadi x) → (∀ x, i ≠ .add x) → (∀ x, i ≠ .sub x) → i ≠ .input →
    t.ac = s.ac

/-- The instructions that write memory are STORE, STOREI, PUSH, POP and CALL, and each changes at most the one word it writes. -/
def Obligations.OnlyFiveInstructionsWriteMemory : Prop :=
  ∀ (i : Instr) (s t : State), exec i s = .next t →
    ((∀ x, i ≠ .store x) → (∀ x, i ≠ .storei x) → i ≠ .push → (∀ x, i ≠ .pop x) → (∀ x, i ≠ .call x) →
      KeepsMemory s t) ∧
    (∀ x, i = .store x → KeepsMemoryBut (directAddress x).toNat s t) ∧
    (∀ x, i = .storei x →
      KeepsMemoryBut (pointerAddress (Memory.read s.mem (directAddress x).toNat)).toNat s t) ∧
    (i = .push → KeepsMemoryBut (pushAddress s).toNat s t) ∧
    (∀ x, i = .call x → KeepsMemoryBut (pushAddress s).toNat s t) ∧
    (∀ x, i = .pop x → KeepsMemoryBut (directAddress x).toNat s t)

/-- A step changes the output channel only by appending the word in AC, and only on OUTPUT's opcode; it changes the pending input only by taking
the first word into AC, and only on INPUT's opcode. -/
def Obligations.ChannelsMoveOnlyByInputAndOutput : Prop :=
  ∀ s t : State, s.run = .running → step s = .next t →
    (t.outputChannel = s.outputChannel ∨
      (opcodeField (Memory.read s.mem s.pc.toNat) = 0x6#4 ∧ t.outputChannel = s.outputChannel ++ [s.ac])) ∧
    (t.inputChannel = s.inputChannel ∨
      (opcodeField (Memory.read s.mem s.pc.toNat) = 0x5#4 ∧ ∃ w, s.inputChannel = w :: t.inputChannel ∧ t.ac = w))

/-- No execute phase writes IR, and none changes a construction parameter. -/
def Obligations.ExecutePhaseKeepsIrAndParameters : Prop :=
  ∀ (i : Instr) (s t : State), exec i s = .next t → t.ir = s.ir ∧ t.params = s.params

/-- An instruction that completes moves SP by one up for PUSH and CALL, by one down for POP and RET, and otherwise leaves it. -/
def Obligations.SpCountsPushesAndPops : Prop :=
  ∀ (i : Instr) (s t : State),
    s.Inv → s.safe = true → exec i s = .next t → t.safe = true →
    (t.sp.toNat : Int) = s.sp.toNat + spDelta i

/-- What MAR, MBR and IR hold at a boundary can be learnt from nothing else in the next state: two engines that differ only there take steps
to states that differ only there. -/
def Obligations.ScratchRegistersAreNeverRead : Prop :=
  ∀ s s' : State, SameButScratch s s' →
    (∀ t, step s = .next t → ∃ t', step s' = .next t' ∧ SameButScratch t t') ∧
    (∀ f, step s = .fault f → step s' = .fault f)

/-- Without wrap (the spec's decision D10, log entry 13), an instruction that completes advances PC by exactly two words if it is a SKIPCOND whose
condition holds, and by exactly one otherwise. JMP, CALL and RET have their own statements. -/
def Obligations.PcAdvancesByOneWithoutWrap : Prop :=
  ∀ (s t : State) (i : Instr),
    s.params.wf = true → s.run = .running → s.pc.toNat < s.params.memSize →
    decodeWord (Memory.read s.mem s.pc.toNat) = .instr i → i.wellFormed s.params = true →
    step s = .next t → t.safe = true →
    (∀ x, i ≠ .jmp x) → (∀ x, i ≠ .call x) → i ≠ .ret →
    ((∃ x, i = .skipcond x ∧ skips x s.ac = true) → t.pc.toNat = s.pc.toNat + 2) ∧
    (¬ (∃ x, i = .skipcond x ∧ skips x s.ac = true) → t.pc.toNat = s.pc.toNat + 1)

/-- A Running engine halts in a step exactly when it executes HALT. -/
def Obligations.OnlyHaltHalts : Prop :=
  ∀ s t : State, s.run = .running → step s = .next t →
    (t.run = .halted ↔
      s.pc.toNat < s.params.memSize ∧ opcodeField (Memory.read s.mem s.pc.toNat) = 0x7#4 ∧
        s.params.enabled.contains .halt = true)

/-! ## Memory -/

/-- The array: a read gives the word last written there by a write or by the loader, or 0x0000 if none has been; a write changes no other word; a
write of the word already there changes nothing. -/
def Obligations.ReadGivesTheWordLastWritten : Prop :=
  ∀ (m : Memory) (a : Nat) (v : Word),
    Memory.read [] a = 0x0000#16 ∧
    Memory.read (Memory.write m a v) a = v ∧
    (∀ b, b ≠ a → Memory.read (Memory.write m a v) b = Memory.read m b) ∧
    (∀ (ws : List Word) (n : Nat) (h : n < ws.length), Memory.read (Memory.writeAll m a ws) (a + n) = ws[n]) ∧
    (∀ b, Memory.read (Memory.write m a (Memory.read m a)) b = Memory.read m b)

/-- The range check of the two access operations of the execute phases, and of fetch: outside `0 .. MEM_SIZE-1` the access is not made and
AddressOutOfRange names the address; inside it is made. -/
def Obligations.EveryAccessIsRangeChecked : Prop :=
  ∀ (s : State) (a : Int) (v : Word),
    ((a < 0 ∨ (s.params.memSize : Int) ≤ a) →
      (∀ k, ∃ t pc, onRead s a k = .next t ∧ t.run = .faulted (.addressOutOfRange a pc) ∧ KeepsMemory s t) ∧
      (∀ k, ∃ t pc, onWrite s a v k = .next t ∧ t.run = .faulted (.addressOutOfRange a pc) ∧ KeepsMemory s t)) ∧
    ((0 ≤ a ∧ a < (s.params.memSize : Int)) →
      (∀ k, onRead s a k = k (Memory.read s.mem a.toNat)) ∧
      (∀ k, ∃ u, onWrite s a v k = k u ∧ Memory.read u.mem a.toNat = v ∧ KeepsMemoryBut a.toNat s u)) ∧
    (s.run = .running → s.params.memSize ≤ s.pc.toNat → ∃ t pc, step s = .next t ∧
      t.run = .faulted (.addressOutOfRange s.pc.toNat pc) ∧ KeepsMemory s t)

/-- A store is seen by the very next fetch: STORE of AC to the word after itself makes the engine fetch and run AC next. -/
def Obligations.StoreIsSeenByTheNextFetch : Prop :=
  ∀ (s : State) (x : Operand),
    s.params.wf = true → s.run = .running → x.toNat = s.pc.toNat + 1 → x.toNat < s.params.memSize →
    Memory.read s.mem s.pc.toNat = encode (.store x) → s.params.enabled.contains .store = true →
    ∃ t, step s = .next t ∧ t.pc = s.pc + 1 ∧ t.run = .running ∧ t.fetchWord = some s.ac ∧
      (∀ i, decodeWord s.ac = .instr i → i.wellFormed s.params = true → step t = exec i (t.fetched s.ac))

/-! ## LOAD, STORE, ADD, SUB -/

/-- LOAD copies the word at the operand address into AC and changes nothing else; outside the memory it stops. -/
def Obligations.LoadCopiesMemoryToAc : Prop :=
  ∀ (x : Operand) (s : State),
    decodeWord (0x1000#16 ||| x.setWidth 16) = .instr (.load x) ∧
    (x.toNat < s.params.memSize → ∃ t, exec (.load x) s = .next t ∧
      t.ac = Memory.read s.mem x.toNat ∧ t.pc = s.pc ∧ t.sp = s.sp ∧
      KeepsControl s t ∧ KeepsMemory s t ∧ KeepsChannels s t) ∧
    (s.params.memSize ≤ x.toNat → StopsOnAddress (.load x) s x.toNat)

/-- STORE copies AC into the word at the operand address and changes nothing else; outside the memory it stops. -/
def Obligations.StoreCopiesAcToMemory : Prop :=
  ∀ (x : Operand) (s : State),
    decodeWord (0x2000#16 ||| x.setWidth 16) = .instr (.store x) ∧
    (x.toNat < s.params.memSize → ∃ t, exec (.store x) s = .next t ∧
      Memory.read t.mem x.toNat = s.ac ∧ KeepsMemoryBut (directAddress x).toNat s t ∧
      t.ac = s.ac ∧ t.pc = s.pc ∧ t.sp = s.sp ∧ KeepsControl s t ∧ KeepsChannels s t) ∧
    (s.params.memSize ≤ x.toNat → StopsOnAddress (.store x) s x.toNat)

/-- ADD puts AC + Mem[x] in AC: exact where it fits 16 bits, modulo 65536 or ArithmeticOverflow as AC_OVERFLOW says where it does not (the
spec's decisions D6 to D8, log entry 10); outside the memory it stops. -/
def Obligations.AddPutsTheSumInAc : Prop :=
  ∀ (x : Operand) (s : State),
    decodeWord (0x3000#16 ||| x.setWidth 16) = .instr (.add x) ∧
    (x.toNat < s.params.memSize →
      ((-32768 ≤ s.ac.toInt + (Memory.read s.mem x.toNat).toInt ∧
        s.ac.toInt + (Memory.read s.mem x.toNat).toInt ≤ 32767) ∨ s.params.acOverflow = .wrap16) →
      ∃ t, exec (.add x) s = .next t ∧
        t.ac = s.ac + Memory.read s.mem x.toNat ∧
        (-32768 ≤ s.ac.toInt + (Memory.read s.mem x.toNat).toInt →
          s.ac.toInt + (Memory.read s.mem x.toNat).toInt ≤ 32767 →
          t.ac.toInt = s.ac.toInt + (Memory.read s.mem x.toNat).toInt) ∧
        t.pc = s.pc ∧ t.sp = s.sp ∧ KeepsControl s t ∧ KeepsMemory s t ∧ KeepsChannels s t) ∧
    (x.toNat < s.params.memSize →
      (s.ac.toInt + (Memory.read s.mem x.toNat).toInt < -32768 ∨
        32767 < s.ac.toInt + (Memory.read s.mem x.toNat).toInt) → s.params.acOverflow = .fault →
      ∃ t pc, exec (.add x) s = .next t ∧
        t.run = .faulted (.arithmeticOverflow (s.ac.toInt + (Memory.read s.mem x.toNat).toInt) pc) ∧
        t.ac = s.ac ∧ t.pc = s.pc ∧ t.sp = s.sp ∧ KeepsMemory s t ∧ KeepsChannels s t) ∧
    (s.params.memSize ≤ x.toNat → StopsOnAddress (.add x) s x.toNat)

/-- SUB puts AC - Mem[x] in AC (never memory minus AC): exact where it fits 16 bits, modulo 65536 or ArithmeticOverflow as AC_OVERFLOW says
where it does not (the spec's decisions D6 to D8, log entry 10); outside the memory it stops. -/
def Obligations.SubPutsTheDifferenceInAc : Prop :=
  ∀ (x : Operand) (s : State),
    decodeWord (0x4000#16 ||| x.setWidth 16) = .instr (.sub x) ∧
    (x.toNat < s.params.memSize →
      ((-32768 ≤ s.ac.toInt - (Memory.read s.mem x.toNat).toInt ∧
        s.ac.toInt - (Memory.read s.mem x.toNat).toInt ≤ 32767) ∨ s.params.acOverflow = .wrap16) →
      ∃ t, exec (.sub x) s = .next t ∧
        t.ac = s.ac - Memory.read s.mem x.toNat ∧
        (-32768 ≤ s.ac.toInt - (Memory.read s.mem x.toNat).toInt →
          s.ac.toInt - (Memory.read s.mem x.toNat).toInt ≤ 32767 →
          t.ac.toInt = s.ac.toInt - (Memory.read s.mem x.toNat).toInt) ∧
        t.pc = s.pc ∧ t.sp = s.sp ∧ KeepsControl s t ∧ KeepsMemory s t ∧ KeepsChannels s t) ∧
    (x.toNat < s.params.memSize →
      (s.ac.toInt - (Memory.read s.mem x.toNat).toInt < -32768 ∨
        32767 < s.ac.toInt - (Memory.read s.mem x.toNat).toInt) → s.params.acOverflow = .fault →
      ∃ t pc, exec (.sub x) s = .next t ∧
        t.run = .faulted (.arithmeticOverflow (s.ac.toInt - (Memory.read s.mem x.toNat).toInt) pc) ∧
        t.ac = s.ac ∧ t.pc = s.pc ∧ t.sp = s.sp ∧ KeepsMemory s t ∧ KeepsChannels s t) ∧
    (s.params.memSize ≤ x.toNat → StopsOnAddress (.sub x) s x.toNat)

/-! ## INPUT, OUTPUT, HALT -/

/-- INPUT takes the first pending word into the INPUT latch and AC and changes nothing else (the channel is the spec's decision D18). -/
def Obligations.InputTakesTheFirstPendingWord : Prop :=
  ∀ (s : State) (w : Word) (rest : List Word), s.inputChannel = w :: rest →
    ∃ t, exec .input s = .next t ∧ t.inputLatch = w ∧ t.ac = w ∧ t.inputChannel = rest ∧
      t.pc = s.pc ∧ t.sp = s.sp ∧ t.outputLatch = s.outputLatch ∧ t.outputChannel = s.outputChannel ∧
      KeepsControl s t ∧ KeepsMemory s t

/-- With no word pending INPUT has no step (a named fault, log entry 6): the engine stays at the boundary before it. Once the environment appends
a word, which changes nothing but the pending input, the step takes that word. -/
def Obligations.InputWaitsForAWord : Prop :=
  ∀ s : State,
    s.run = .running → s.pc.toNat < s.params.memSize → opcodeField (Memory.read s.mem s.pc.toNat) = 0x5#4 →
    s.params.enabled.contains .input = true → s.inputChannel = [] →
    step s = .fault .inputWait ∧
    (∀ w, s.supplyInput w = { s with inputChannel := [w] }) ∧
    (∀ w, ∃ t, step (s.supplyInput w) = .next t ∧ t.ac = w ∧ t.inputLatch = w ∧ t.inputChannel = [] ∧
      t.pc = s.pc + 1 ∧ t.run = .running)

/-- OUTPUT copies AC into the OUTPUT latch and emits it, and changes nothing else. -/
def Obligations.OutputEmitsAc : Prop :=
  (∀ x : Operand, decodeWord (0x6000#16 ||| x.setWidth 16) = .instr .output) ∧
  ∀ s : State, ∃ t, exec .output s = .next t ∧ t.outputLatch = s.ac ∧ t.outputChannel = s.outputChannel ++ [s.ac] ∧
    t.ac = s.ac ∧ t.pc = s.pc ∧ t.sp = s.sp ∧ t.inputLatch = s.inputLatch ∧ t.inputChannel = s.inputChannel ∧
    KeepsControl s t ∧ KeepsMemory s t

/-- HALT makes the run state Halted, every register and memory word keeps its value, and no further instruction is fetched. -/
def Obligations.HaltStopsExecution : Prop :=
  (∀ x : Operand, decodeWord (0x7000#16 ||| x.setWidth 16) = .instr .halt) ∧
  ∀ s : State, ∃ t, exec .halt s = .next t ∧ t.run = .halted ∧
    t.ac = s.ac ∧ t.pc = s.pc ∧ t.sp = s.sp ∧ t.ir = s.ir ∧ t.mar = s.mar ∧ t.params = s.params ∧
    KeepsMemory s t ∧ KeepsChannels s t ∧ step t = .fault .engineHalted

/-! ## SKIPCOND, JMP, CALL, RET -/

/-- SKIPCOND adds one to PC if its whole condition code is 0x000 and AC is negative, 0x400 and AC is zero, or 0x800 and AC is positive; any
other code or AC is a no-op. If PC then lies outside the memory, the next fetch stops the engine. -/
def Obligations.SkipcondSkipsOnItsCondition : Prop :=
  ∀ (x : Operand) (s : State),
    decodeWord (0x8000#16 ||| x.setWidth 16) = .instr (.skipcond x) ∧
    ∃ t, exec (.skipcond x) s = .next t ∧
      (x = 0x000#12 ∧ s.ac.toInt < 0 ∨ x = 0x400#12 ∧ s.ac.toInt = 0 ∨ x = 0x800#12 ∧ 0 < s.ac.toInt →
        t.pc = s.pc + 1) ∧
      (¬ (x = 0x000#12 ∧ s.ac.toInt < 0) → ¬ (x = 0x400#12 ∧ s.ac.toInt = 0) → ¬ (x = 0x800#12 ∧ 0 < s.ac.toInt) →
        t.pc = s.pc) ∧
      t.ac = s.ac ∧ t.sp = s.sp ∧ KeepsControl s t ∧ KeepsMemory s t ∧ KeepsChannels s t ∧
      (s.params.memSize ≤ t.pc.toNat → FailsAtNextFetch t)

/-- JMP sets PC to its operand and saves nothing; a target outside the memory is accepted and stops the engine at the next fetch. -/
def Obligations.JmpSetsPcToTheOperand : Prop :=
  ∀ (x : Operand) (s : State),
    decodeWord (0x9000#16 ||| x.setWidth 16) = .instr (.jmp x) ∧
    ∃ t, exec (.jmp x) s = .next t ∧ t.pc = x.setWidth 16 ∧ t.pc.toNat = x.toNat ∧
      t.ac = s.ac ∧ t.sp = s.sp ∧ t.ir = s.ir ∧ t.run = s.run ∧ t.params = s.params ∧
      KeepsMemory s t ∧ KeepsChannels s t ∧
      (s.params.memSize ≤ t.pc.toNat → FailsAtNextFetch t)

/-- CALL pushes PC (the address after it), adds one to SP, and sets PC to the operand plus one, exactly; with no room it stops with nothing
written. A target outside the memory stops the engine at the next fetch. -/
def Obligations.CallPushesPcAndEntersAfterTheOperand : Prop :=
  ∀ (x : Operand) (s : State),
    decodeWord (0xA000#16 ||| x.setWidth 16) = .instr (.call x) ∧
    (s.sp.toNat < s.params.memSize → ∃ t, exec (.call x) s = .next t ∧
      Memory.read t.mem s.sp.toNat = s.pc ∧ KeepsMemoryBut (pushAddress s).toNat s t ∧
      t.sp = s.sp + 1 ∧ t.pc = x.setWidth 16 + 1 ∧ t.pc.toNat = x.toNat + 1 ∧
      t.ac = s.ac ∧ t.ir = s.ir ∧ t.run = s.run ∧ t.params = s.params ∧ KeepsChannels s t ∧
      (s.params.memSize ≤ t.pc.toNat → FailsAtNextFetch t)) ∧
    (s.params.memSize ≤ s.sp.toNat → StopsOnAddress (.call x) s s.sp.toNat)

/-- RET sets PC to the word at Mem[SP - 1], all 16 bits (the spec's decision D16, log entry 11), and takes one from SP; at SP = 0 it stops on the
address -1; a popped address outside the memory stops the engine at the next fetch. -/
def Obligations.RetPopsPc : Prop :=
  ∀ s : State,
    (0 < s.sp.toNat → s.sp.toNat ≤ s.params.memSize → ∃ t, exec .ret s = .next t ∧
      t.pc = Memory.read s.mem (s.sp.toNat - 1) ∧ t.sp = s.sp - 1 ∧
      t.ac = s.ac ∧ t.ir = s.ir ∧ t.run = s.run ∧ t.params = s.params ∧ KeepsMemory s t ∧ KeepsChannels s t ∧
      (s.params.memSize ≤ t.pc.toNat → FailsAtNextFetch t)) ∧
    (s.sp.toNat = 0 → StopsOnAddress .ret s (-1))

/-! ## LOADI, STOREI -/

/-- LOADI reads the pointer at the operand address, then the word at the pointer's unsigned value, all 16 bits (the spec's decision D16, log
entry 11), into AC, and changes nothing else; either address outside the memory stops it, the first before the second. -/
def Obligations.LoadiLoadsThroughThePointer : Prop :=
  ∀ (x : Operand) (s : State),
    (x.toNat < s.params.memSize → (Memory.read s.mem x.toNat).toNat < s.params.memSize →
      ∃ t, exec (.loadi x) s = .next t ∧ t.ac = Memory.read s.mem (Memory.read s.mem x.toNat).toNat ∧
        t.pc = s.pc ∧ t.sp = s.sp ∧ KeepsControl s t ∧ KeepsMemory s t ∧ KeepsChannels s t) ∧
    (x.toNat < s.params.memSize → s.params.memSize ≤ (Memory.read s.mem x.toNat).toNat →
      StopsOnAddress (.loadi x) s (Memory.read s.mem x.toNat).toNat) ∧
    (s.params.memSize ≤ x.toNat → StopsOnAddress (.loadi x) s x.toNat)

/-- STOREI reads the pointer at the operand address and writes AC at the pointer's unsigned value, all 16 bits (the spec's decision D16, log entry
11), and changes nothing else; either address outside the memory stops it with memory unchanged. -/
def Obligations.StoreiStoresThroughThePointer : Prop :=
  ∀ (x : Operand) (s : State),
    decodeWord (0xD000#16 ||| x.setWidth 16) = .instr (.storei x) ∧
    (x.toNat < s.params.memSize → (Memory.read s.mem x.toNat).toNat < s.params.memSize →
      ∃ t, exec (.storei x) s = .next t ∧ Memory.read t.mem (Memory.read s.mem x.toNat).toNat = s.ac ∧
        KeepsMemoryBut (pointerAddress (Memory.read s.mem (directAddress x).toNat)).toNat s t ∧
        t.ac = s.ac ∧ t.pc = s.pc ∧ t.sp = s.sp ∧ KeepsControl s t ∧ KeepsChannels s t) ∧
    (x.toNat < s.params.memSize → s.params.memSize ≤ (Memory.read s.mem x.toNat).toNat →
      StopsOnAddress (.storei x) s (Memory.read s.mem x.toNat).toNat) ∧
    (s.params.memSize ≤ x.toNat → StopsOnAddress (.storei x) s x.toNat)

/-! ## PUSH, POP -/

/-- PUSH writes AC at Mem[SP], adds one to SP and changes nothing else; with no room it stops with memory and SP unchanged. -/
def Obligations.PushStoresAcAndRaisesSp : Prop :=
  ∀ s : State,
    (∀ x : Operand, decodeWord (0xE000#16 ||| x.setWidth 16) = .instr .push) ∧
    (s.sp.toNat < s.params.memSize → ∃ t, exec .push s = .next t ∧
      Memory.read t.mem s.sp.toNat = s.ac ∧ KeepsMemoryBut (pushAddress s).toNat s t ∧ t.sp = s.sp + 1 ∧
      t.ac = s.ac ∧ t.pc = s.pc ∧ KeepsControl s t ∧ KeepsChannels s t) ∧
    (s.params.memSize ≤ s.sp.toNat → StopsOnAddress .push s s.sp.toNat)

/-- POP copies the word at Mem[SP - 1] to the operand address and takes one from SP, AC unchanged (the spec's decision D12, log entry 12); at
SP = 0, or with the operand outside the memory, it stops with nothing changed, the stack's address checked first. -/
def Obligations.PopStoresTheTopOfTheStack : Prop :=
  ∀ (x : Operand) (s : State),
    (0 < s.sp.toNat → s.sp.toNat ≤ s.params.memSize → x.toNat < s.params.memSize → ∃ t, exec (.pop x) s = .next t ∧
      Memory.read t.mem x.toNat = Memory.read s.mem (s.sp.toNat - 1) ∧ KeepsMemoryBut (directAddress x).toNat s t ∧
      t.sp = s.sp - 1 ∧ t.ac = s.ac ∧ t.pc = s.pc ∧ KeepsControl s t ∧ KeepsChannels s t) ∧
    (s.sp.toNat = 0 → StopsOnAddress (.pop x) s (-1)) ∧
    (0 < s.sp.toNat → s.sp.toNat ≤ s.params.memSize → s.params.memSize ≤ x.toNat →
      StopsOnAddress (.pop x) s x.toNat)

/-- POP right after PUSH, with the fetch of its word between them: SP and AC are as before PUSH and the destination holds the pushed AC. -/
def Obligations.PopAfterPushRestoresSpAndAc : Prop :=
  ∀ (s : State) (w : Word) (x : Operand),
    s.Inv → s.sp.toNat < s.params.memSize → x.toNat < s.params.memSize →
    ∃ t u, exec .push s = .next t ∧ exec (.pop x) (t.fetched w) = .next u ∧
      u.sp = s.sp ∧ u.ac = s.ac ∧ Memory.read u.mem x.toNat = s.ac ∧
      (∀ b, b ≠ x.toNat → b ≠ s.sp.toNat → Memory.read u.mem b = Memory.read s.mem b)

/-- Two pushes and two pops: SP is restored and the values come back in reverse order, whatever AC is set to between the pushes, if the first
destination is not a stack slot still in use. -/
def Obligations.StackIsLastInFirstOut : Prop :=
  ∀ (s : State) (v w1 w2 w3 : Word) (x y : Operand),
    s.Inv → s.sp.toNat + 1 < s.params.memSize → x.toNat < s.params.memSize → y.toNat < s.params.memSize →
    x.toNat ≠ s.sp.toNat → x ≠ y →
    ∃ t1 t2 t3 t4, exec .push s = .next t1 ∧ exec .push ((t1.fetched w1).setAc v) = .next t2 ∧
      exec (.pop x) (t2.fetched w2) = .next t3 ∧ exec (.pop y) (t3.fetched w3) = .next t4 ∧
      t4.sp = s.sp ∧ Memory.read t4.mem x.toNat = v ∧ Memory.read t4.mem y.toNat = s.ac

/-- A subroutine that leaves its return address on top of the stack returns to the instruction after the CALL, with SP as it was and AC as it
left it: RET from any Running state with the SP and the stack word that CALL left. -/
def Obligations.RetReturnsToTheInstructionAfterCall : Prop :=
  ∀ (s u : State) (x : Operand),
    s.Inv → s.sp.toNat < s.params.memSize →
    ∃ t, exec (.call x) s = .next t ∧
      (u.sp = t.sp → u.params = t.params → Memory.read u.mem s.sp.toNat = Memory.read t.mem s.sp.toNat →
        ∃ v, exec .ret u = .next v ∧ v.pc = s.pc ∧ v.sp = s.sp ∧ v.ac = u.ac ∧ KeepsMemory u v)

/-! ## Arithmetic -/

/-- The arithmetic law at the word level: the signed and the unsigned reading give the same 16-bit pattern, and a result that fits is exact. -/
def Obligations.SignedAndUnsignedSumsAgree : Prop :=
  ∀ a m : Word,
    u16 (exactSum a m) = u16 ((a.toNat : Int) + m.toNat) ∧
    u16 (exactDifference a m) = u16 ((a.toNat : Int) - m.toNat) ∧
    (-65536 ≤ exactSum a m ∧ exactSum a m ≤ 65534 ∧ -65535 ≤ exactDifference a m ∧ exactDifference a m ≤ 65535) ∧
    (∀ r : Int, fits16 r = true ↔ s16 (u16 r) = r)

/-! ## Reset, loading -/

/-- Reset leaves the values the spec states: PC 0, SP 2000, Running, no output, every word of memory 0x0000, the default parameters. -/
def Obligations.ResetLeavesTheStatedValues : Prop :=
  State.reset.pc = 0x0000#16 ∧ State.reset.sp = 2000#16 ∧ State.reset.run = .running ∧
  State.reset.outputChannel = [] ∧ (∀ a, Memory.read State.reset.mem a = 0x0000#16) ∧
  State.reset.params.memSize = 4096 ∧ State.reset.params.stackBase = 2000 ∧
  State.reset.params.startAddress = 0 ∧ State.reset.params.acOverflow = .wrap16 ∧
  (∀ i : Instr, i.wellFormed State.reset.params = true)

/-- Initialisation from any state zeroes the memory, sets SP to STACK_BASE and the run state to Running and empties the output (the last three are
the spec's decision D19), and doing it twice leaves those as doing it once. -/
def Obligations.InitialiseZeroesTheMemory : Prop :=
  ∀ s : State, s.params.wf = true →
    (∀ a, Memory.read s.initialise.mem a = 0x0000#16) ∧ s.initialise.sp.toNat = s.params.stackBase ∧
    s.initialise.run = .running ∧ s.initialise.outputChannel = [] ∧ s.initialise.params = s.params ∧
    s.initialise.inputChannel = s.inputChannel ∧
    (s.initialise.initialise.mem = s.initialise.mem ∧ s.initialise.initialise.sp = s.initialise.sp ∧
      s.initialise.initialise.run = s.initialise.run ∧
      s.initialise.initialise.outputChannel = s.initialise.outputChannel)

/-- Starting a program: the words of the buffer stand from START_ADDRESS on, every other word is 0x0000, PC is START_ADDRESS and the engine runs; a
buffer that does not fit is refused (the start address and the refusal are the spec's decisions D5, D27). -/
def Obligations.LoadCopiesTheBuffer : Prop :=
  ∀ (s : State) (buffer : List Word), s.params.wf = true →
    (s.params.startAddress + buffer.length ≤ s.params.memSize →
      ∃ t, s.start buffer = .next t ∧ t.pc.toNat = s.params.startAddress ∧ t.sp.toNat = s.params.stackBase ∧
        t.run = .running ∧ t.outputChannel = [] ∧
        (∀ n (h : n < buffer.length), Memory.read t.mem (s.params.startAddress + n) = buffer[n]) ∧
        (∀ a, a < s.params.startAddress ∨ s.params.startAddress + buffer.length ≤ a →
          Memory.read t.mem a = 0x0000#16)) ∧
    (s.params.memSize < s.params.startAddress + buffer.length → s.start buffer = .refused .programDoesNotFit)

/-! ## The form of the memory data -/

/-- The model's own form of the array (log entry 9, DEDUCED): a write and the loader keep it, a write of the word already there gives the same
data, and two arrays in that form that read alike are equal data. -/
def Obligations.WritesKeepTheCanonicalMemory : Prop :=
  (∀ (m : Memory) (a : Nat) (v : Word), Memory.wf m = true →
    Memory.wf (Memory.write m a v) = true ∧ Memory.write m a (Memory.read m a) = m) ∧
  (∀ (m : Memory) (a : Nat) (ws : List Word), Memory.wf m = true → Memory.wf (Memory.writeAll m a ws) = true) ∧
  (∀ m m' : Memory, Memory.wf m = true → Memory.wf m' = true →
    (∀ a, Memory.read m a = Memory.read m' a) → m = m')
end

