-- ==== Sys2Proof/Laws/Decode.lean ====
section
/-! SUPPORT. The fields of a word and of an encoded instruction. -/

namespace Sys2Proof

/-- The opcode field of a word built from an opcode and an operand (30_encoding.md R71). -/
@[simp] theorem opcodeField_ofFields (c : OpcodeField) (x : Operand) :
    opcodeField ((c.setWidth 16 <<< 12) ||| x.setWidth 16) = c := by
  apply BitVec.eq_of_getLsbD_eq
  intro i hi
  have h : i < 16 := by omega
  simp only [opcodeField, BitVec.getLsbD_extractLsb', BitVec.getLsbD_or, BitVec.getLsbD_shiftLeft, BitVec.getLsbD_setWidth]
  simp [hi, h]
  omega

/-- The operand field of a word built from an opcode and an operand (30_encoding.md R71). -/
@[simp] theorem operandField_ofFields (c : OpcodeField) (x : Operand) :
    operandField ((c.setWidth 16 <<< 12) ||| x.setWidth 16) = x := by
  apply BitVec.eq_of_getLsbD_eq
  intro i hi
  have h : i < 16 := by omega
  simp [operandField, hi, h]

/-- A word is its two fields (30_encoding.md R71). -/
theorem ofFields_fields (w : Word) : ((opcodeField w).setWidth 16 <<< 12) ||| (operandField w).setWidth 16 = w := by
  apply BitVec.eq_of_getLsbD_eq
  intro i hi
  simp only [opcodeField, operandField, BitVec.getLsbD_or, BitVec.getLsbD_shiftLeft, BitVec.getLsbD_setWidth,
    BitVec.getLsbD_extractLsb']
  by_cases h : i < 12
  · simp [h, hi]
  · have h1 : i - 12 < 4 := by omega
    have h2 : 12 + (i - 12) = i := by omega
    have h3 : i - 12 < 16 := by omega
    simp [h, hi, h1, h2, h3]

@[simp] theorem opcodeField_encode (i : Instr) : opcodeField (encode i) = i.opcode.code := opcodeField_ofFields _ _

@[simp] theorem operandField_encode (i : Instr) : operandField (encode i) = i.operand := operandField_ofFields _ _

/-- A word that decodes to an instruction has its opcode (30_encoding.md R72). -/
theorem opcodeField_of_decodeWord {w : Word} {i : Instr} (h : decodeWord w = .instr i) : opcodeField w = i.opcode.code := by
  unfold decodeWord at h
  split at h <;> cases h <;>
    (rename_i hc
     have hw : opcodeField w = BitVec.ofNat 4 (opcodeField w).toNat := by simp
     rw [hc] at hw
     exact hw)

/-- The fields of a word written as the pattern of the opcode with the operand in its low bits (30_encoding.md R72). -/
theorem fields_of_pattern {c : OpcodeField} {w : Word} (x : Operand) (h : c.setWidth 16 <<< 12 = w) :
    opcodeField (w ||| x.setWidth 16) = c ∧ operandField (w ||| x.setWidth 16) = x := by
  subst h
  exact ⟨opcodeField_ofFields c x, operandField_ofFields c x⟩

/-- The operand is what the mask 0x0FFF leaves of the word (40_fetch_decode_execute.md R102). -/
theorem operandField_setWidth (w : Word) : (operandField w).setWidth 16 = w &&& 0x0FFF#16 := by
  apply BitVec.eq_of_getLsbD_eq
  intro j hj
  have hm : (0x0FFF#16).getLsbD j = decide (j < 12) := by interval_cases j <;> rfl
  simp only [BitVec.getLsbD_and, hm]
  by_cases h12 : j < 12 <;> simp [operandField, h12, hj]

/-- The opcode in its place is what the mask 0xF000 leaves of the word (40_fetch_decode_execute.md R102). -/
theorem opcodeField_inPlace (w : Word) : (opcodeField w).setWidth 16 <<< 12 = opcodeInPlace w := by
  apply BitVec.eq_of_getLsbD_eq
  intro j hj
  have hm : (0xF000#16).getLsbD j = decide (12 ≤ j) := by interval_cases j <;> rfl
  simp only [opcodeInPlace, BitVec.getLsbD_and, hm, opcodeField]
  by_cases h12 : 12 ≤ j
  · have h1 : 12 + (j - 12) = j := by omega
    have h2 : j - 12 < 4 := by omega
    have h4 : ¬ j < 12 := by omega
    simp [hj, h12, h1, h2, h4]
  · have h4 : j < 12 := by omega
    simp [h12, h4]

end Sys2Proof
end

