-- ==== Sys2Proof/Laws/Memory.lean ====
section
/-! SUPPORT. The laws of the memory array: read after write, the canonical form, the bound. -/

namespace Sys2Proof.Machine

@[simp] theorem Memory.read_nil (a : Nat) : Memory.read [] a = Memory.unlisted := rfl

theorem Memory.read_erase_same (m : Memory) (a : Nat) : Memory.read (Memory.erase m a) a = Memory.unlisted := by
  induction m with
  | nil => rfl
  | cons c m ih =>
    obtain ⟨b, w⟩ := c
    by_cases h : b = a
    · simpa [Memory.erase, h] using ih
    · simpa [Memory.erase, Memory.read, h] using ih

theorem Memory.read_erase_other (m : Memory) {a b : Nat} (h : b ≠ a) :
    Memory.read (Memory.erase m a) b = Memory.read m b := by
  induction m with
  | nil => rfl
  | cons c m ih =>
    obtain ⟨d, w⟩ := c
    by_cases hd : d = a
    · have hdb : ¬ a = b := fun e => h e.symm
      simpa [Memory.erase, Memory.read, hd, hdb] using ih
    · by_cases hb : d = b
      · subst hb
        simp [Memory.erase, Memory.read, hd]
      · simpa [Memory.erase, Memory.read, hd, hb] using ih

theorem Memory.not_listed_erase (m : Memory) (a : Nat) : ∀ c ∈ Memory.erase m a, c.1 ≠ a := by
  intro c hc
  simpa [Memory.erase] using (List.mem_filter.1 hc).2

theorem Memory.read_insert_same {m : Memory} {a : Nat} (v : Word) (h : ∀ c ∈ m, c.1 ≠ a) :
    Memory.read (Memory.insert m a v) a = v := by
  induction m with
  | nil => simp [Memory.insert, Memory.read]
  | cons c m ih =>
    obtain ⟨b, w⟩ := c
    have hb : b ≠ a := h (b, w) (by simp)
    by_cases hab : a < b
    · simp [Memory.insert, Memory.read, hab]
    · simpa [Memory.insert, Memory.read, hab, hb] using ih fun c hc => h c (by simp [hc])

theorem Memory.read_insert_other (m : Memory) {a b : Nat} (v : Word) (h : b ≠ a) :
    Memory.read (Memory.insert m a v) b = Memory.read m b := by
  have h' : ¬ a = b := fun e => h e.symm
  induction m with
  | nil => simp [Memory.insert, Memory.read, h']
  | cons c m ih =>
    obtain ⟨d, w⟩ := c
    by_cases hd : a < d
    · simp [Memory.insert, Memory.read, hd, h']
    · by_cases hb : d = b
      · subst hb
        simp [Memory.insert, Memory.read, hd]
      · simpa [Memory.insert, Memory.read, hd, hb] using ih

/-- A read after a write to the same place gives the value written (20_memory.md R51). -/
@[simp] theorem Memory.read_write_same (m : Memory) (a : Nat) (v : Word) :
    Memory.read (Memory.write m a v) a = v := by
  by_cases hv : v = Memory.unlisted
  · simpa [Memory.write, hv] using Memory.read_erase_same m a
  · simpa [Memory.write, hv] using Memory.read_insert_same v (Memory.not_listed_erase m a)

/-- A write changes no other word (20_memory.md R51). -/
theorem Memory.read_write_other (m : Memory) {a b : Nat} (v : Word) (h : b ≠ a) :
    Memory.read (Memory.write m a v) b = Memory.read m b := by
  by_cases hv : v = Memory.unlisted
  · simpa [Memory.write, hv] using Memory.read_erase_other m h
  · simpa [Memory.write, hv, Memory.read_insert_other _ v h] using Memory.read_erase_other m h

/-- Reading after a write, in one equation. -/
theorem Memory.read_write (m : Memory) (a b : Nat) (v : Word) :
    Memory.read (Memory.write m a v) b = if b = a then v else Memory.read m b := by
  by_cases h : b = a
  · simp [h]
  · simp [h, Memory.read_write_other m v h]

theorem Memory.wfFrom_mono {m : Memory} {lo lo' : Nat} (hl : lo ≤ lo') (h : Memory.wfFrom lo' m = true) :
    Memory.wfFrom lo m = true := by
  cases m with
  | nil => rfl
  | cons c m =>
    obtain ⟨b, w⟩ := c
    simp only [Memory.wfFrom, Bool.and_eq_true, decide_eq_true_eq] at h ⊢
    exact ⟨⟨hl.trans h.1.1, h.1.2⟩, h.2⟩

theorem Memory.wfFrom_erase {m : Memory} {lo : Nat} (a : Nat) (h : Memory.wfFrom lo m = true) :
    Memory.wfFrom lo (Memory.erase m a) = true := by
  induction m generalizing lo with
  | nil => rfl
  | cons c m ih =>
    obtain ⟨b, w⟩ := c
    simp only [Memory.wfFrom, Bool.and_eq_true, decide_eq_true_eq] at h
    obtain ⟨⟨hb, hw⟩, hm⟩ := h
    have htail := ih hm
    by_cases hba : b = a
    · simpa [Memory.erase, hba] using Memory.wfFrom_mono (by omega) htail
    · have he : Memory.erase ((b, w) :: m) a = (b, w) :: Memory.erase m a := by simp [Memory.erase, hba]
      simp only [he, Memory.wfFrom, Bool.and_eq_true, decide_eq_true_eq]
      exact ⟨⟨hb, hw⟩, htail⟩

theorem Memory.wfFrom_insert {m : Memory} {lo a : Nat} {v : Word} (h : Memory.wfFrom lo m = true) (hlo : lo ≤ a)
    (hv : v ≠ Memory.unlisted) (ha : ∀ c ∈ m, c.1 ≠ a) : Memory.wfFrom lo (Memory.insert m a v) = true := by
  induction m generalizing lo with
  | nil => simp [Memory.insert, Memory.wfFrom, hlo, hv]
  | cons c m ih =>
    obtain ⟨b, w⟩ := c
    have hb : b ≠ a := ha (b, w) (by simp)
    simp only [Memory.wfFrom, Bool.and_eq_true, decide_eq_true_eq] at h
    obtain ⟨⟨hlb, hw⟩, hm⟩ := h
    by_cases hab : a < b
    · simp only [Memory.insert, hab, if_true, Memory.wfFrom, Bool.and_eq_true, decide_eq_true_eq]
      exact ⟨⟨hlo, hv⟩, ⟨by omega, hw⟩, hm⟩
    · simp only [Memory.insert, hab, if_false, Memory.wfFrom, Bool.and_eq_true, decide_eq_true_eq]
      exact ⟨⟨hlb, hw⟩, ih hm (by omega) fun c hc => ha c (by simp [hc])⟩

/-- The empty array is canonical. -/
@[simp] theorem Memory.wf_nil : Memory.wf [] = true := rfl

/-- A write keeps the canonical form. -/
theorem Memory.wf_write {m : Memory} (a : Nat) (v : Word) (h : Memory.wf m = true) :
    Memory.wf (Memory.write m a v) = true := by
  have he := Memory.wfFrom_erase a h
  by_cases hv : v = Memory.unlisted
  · simpa [Memory.write, hv, Memory.wf] using he
  · simpa [Memory.write, hv, Memory.wf] using
      Memory.wfFrom_insert he (Nat.zero_le a) hv (Memory.not_listed_erase m a)

/-- The loader keeps the canonical form. -/
theorem Memory.wf_writeAll {m : Memory} (a : Nat) (ws : List Word) (h : Memory.wf m = true) :
    Memory.wf (Memory.writeAll m a ws) = true := by
  induction ws generalizing m a with
  | nil => exact h
  | cons w ws ih => exact ih (a + 1) (Memory.wf_write a w h)

theorem Memory.mem_insert {m : Memory} {a : Nat} {v : Word} {c : Nat × Word} (h : c ∈ Memory.insert m a v) :
    c = (a, v) ∨ c ∈ m := by
  induction m with
  | nil => simpa [Memory.insert] using h
  | cons d m ih =>
    obtain ⟨b, w⟩ := d
    by_cases hab : a < b
    · simpa [Memory.insert, hab] using h
    · simp only [Memory.insert, hab, if_false, List.mem_cons] at h ⊢
      rcases h with h | h
      · exact .inr (.inl h)
      · exact (ih h).imp_right .inr

/-- The empty array lists nothing beyond any bound. -/
@[simp] theorem Memory.below_nil (n : Nat) : Memory.below n [] = true := rfl

/-- A write inside an array of `n` words lists nothing outside it. -/
theorem Memory.below_write {m : Memory} {n a : Nat} (v : Word) (ha : a < n) (h : Memory.below n m = true) :
    Memory.below n (Memory.write m a v) = true := by
  simp only [Memory.below, List.all_eq_true, decide_eq_true_eq] at h ⊢
  intro c hc
  by_cases hv : v = Memory.unlisted
  · rw [Memory.write, if_pos hv] at hc
    exact h c (List.mem_of_mem_filter hc)
  · rw [Memory.write, if_neg hv] at hc
    rcases Memory.mem_insert hc with rfl | hc
    · exact ha
    · exact h c (List.mem_of_mem_filter hc)

/-- The loader lists nothing outside the array if the buffer fits. -/
theorem Memory.below_writeAll {m : Memory} {n a : Nat} (ws : List Word) (ha : a + ws.length ≤ n)
    (h : Memory.below n m = true) : Memory.below n (Memory.writeAll m a ws) = true := by
  induction ws generalizing m a with
  | nil => exact h
  | cons w ws ih =>
    simp only [List.length_cons] at ha
    exact ih (by omega) (Memory.below_write w (by omega) h)

/-- What the loader leaves at an address: the buffer's word where it was loaded, the old word elsewhere (70_reset_and_hazards.md R202). -/
theorem Memory.read_writeAll (m : Memory) (a : Nat) (ws : List Word) (b : Nat) :
    Memory.read (Memory.writeAll m a ws) b =
      if h : a ≤ b ∧ b - a < ws.length then ws[b - a]'h.2 else Memory.read m b := by
  induction ws generalizing m a with
  | nil => simp [Memory.writeAll]
  | cons w ws ih =>
    rw [Memory.writeAll, ih]
    by_cases hb : b = a
    · subst hb
      simp
    · by_cases h : a + 1 ≤ b ∧ b - (a + 1) < ws.length
      · have h' : a ≤ b ∧ b - a < (w :: ws).length := ⟨by omega, by simp; omega⟩
        have hi : b - a = (b - (a + 1)) + 1 := by omega
        simp only [h, and_self, dite_true, h']
        simp [hi]
      · have h' : ¬ (a ≤ b ∧ b - a < (w :: ws).length) := by
          simp only [List.length_cons]; omega
        simp only [h, h', dite_false]
        exact Memory.read_write_other m w hb

theorem Memory.read_lt_of_wfFrom {m : Memory} {lo a : Nat} (h : Memory.wfFrom lo m = true) (ha : a < lo) :
    Memory.read m a = Memory.unlisted := by
  induction m generalizing lo with
  | nil => rfl
  | cons c m ih =>
    obtain ⟨b, w⟩ := c
    simp only [Memory.wfFrom, Bool.and_eq_true, decide_eq_true_eq] at h
    have hb : ¬ b = a := by omega
    simpa [Memory.read, hb] using ih h.2 (by omega)

theorem Memory.ext_wfFrom {m m' : Memory} {lo : Nat} (h : Memory.wfFrom lo m = true) (h' : Memory.wfFrom lo m' = true)
    (hr : ∀ a, Memory.read m a = Memory.read m' a) : m = m' := by
  induction m generalizing lo m' with
  | nil =>
    cases m' with
    | nil => rfl
    | cons c m' =>
      obtain ⟨b, w⟩ := c
      simp only [Memory.wfFrom, Bool.and_eq_true, decide_eq_true_eq] at h'
      exact absurd (by simpa [Memory.read] using (hr b).symm) h'.1.2
  | cons c m ih =>
    obtain ⟨b, w⟩ := c
    simp only [Memory.wfFrom, Bool.and_eq_true, decide_eq_true_eq] at h
    obtain ⟨⟨hlo, hw⟩, hm⟩ := h
    cases m' with
    | nil => exact absurd (by simpa [Memory.read] using hr b) hw
    | cons d m' =>
      obtain ⟨b', w'⟩ := d
      simp only [Memory.wfFrom, Bool.and_eq_true, decide_eq_true_eq] at h'
      obtain ⟨⟨hlo', hw'⟩, hm'⟩ := h'
      have hbb : b = b' := by
        rcases Nat.lt_trichotomy b b' with hlt | heq | hlt
        · have hne : ¬ b' = b := by omega
          have := hr b
          simp [Memory.read, hne, Memory.read_lt_of_wfFrom hm' (by omega : b < b' + 1)] at this
          exact absurd this hw
        · exact heq
        · have hne : ¬ b = b' := by omega
          have := hr b'
          simp [Memory.read, hne, Memory.read_lt_of_wfFrom hm (by omega : b' < b + 1)] at this
          exact absurd this.symm hw'
      subst hbb
      have hww : w = w' := by simpa [Memory.read] using hr b
      subst hww
      have htail : m = m' := ih hm hm' fun a => by
        by_cases hab : b = a
        · subst hab
          rw [Memory.read_lt_of_wfFrom hm (by omega), Memory.read_lt_of_wfFrom hm' (by omega)]
        · simpa [Memory.read, hab] using hr a
      rw [htail]

/-- Equal memories are equal data: two canonical arrays that read the same everywhere are the same list. -/
theorem Memory.ext_wf {m m' : Memory} (h : Memory.wf m = true) (h' : Memory.wf m' = true)
    (hr : ∀ a, Memory.read m a = Memory.read m' a) : m = m' :=
  Memory.ext_wfFrom h h' hr

end Sys2Proof.Machine
end

