-- ==== Sys2Proof/Laws/State.lean ====
section
/-! SUPPORT. What each update of the state leaves in each field, one lemma per field per update. -/

namespace Sys2Proof.Machine

variable (s : State)

@[simp] theorem State.setAc_ac (v : Word) : (s.setAc v).ac = v := rfl
@[simp] theorem State.setAc_pc (v : Word) : (s.setAc v).pc = s.pc := rfl
@[simp] theorem State.setAc_mar (v : Word) : (s.setAc v).mar = s.mar := rfl
@[simp] theorem State.setAc_mbr (v : Word) : (s.setAc v).mbr = s.mbr := rfl
@[simp] theorem State.setAc_ir (v : Word) : (s.setAc v).ir = s.ir := rfl
@[simp] theorem State.setAc_sp (v : Word) : (s.setAc v).sp = s.sp := rfl
@[simp] theorem State.setAc_inputLatch (v : Word) : (s.setAc v).inputLatch = s.inputLatch := rfl
@[simp] theorem State.setAc_outputLatch (v : Word) : (s.setAc v).outputLatch = s.outputLatch := rfl
@[simp] theorem State.setAc_mem (v : Word) : (s.setAc v).mem = s.mem := rfl
@[simp] theorem State.setAc_run (v : Word) : (s.setAc v).run = s.run := rfl
@[simp] theorem State.setAc_inputChannel (v : Word) : (s.setAc v).inputChannel = s.inputChannel := rfl
@[simp] theorem State.setAc_outputChannel (v : Word) : (s.setAc v).outputChannel = s.outputChannel := rfl
@[simp] theorem State.setAc_params (v : Word) : (s.setAc v).params = s.params := rfl
@[simp] theorem State.setAc_draws (v : Word) : (s.setAc v).draws = s.draws := rfl

@[simp] theorem State.setPc_ac (v : Word) : (s.setPc v).ac = s.ac := rfl
@[simp] theorem State.setPc_pc (v : Word) : (s.setPc v).pc = v := rfl
@[simp] theorem State.setPc_mar (v : Word) : (s.setPc v).mar = s.mar := rfl
@[simp] theorem State.setPc_mbr (v : Word) : (s.setPc v).mbr = s.mbr := rfl
@[simp] theorem State.setPc_ir (v : Word) : (s.setPc v).ir = s.ir := rfl
@[simp] theorem State.setPc_sp (v : Word) : (s.setPc v).sp = s.sp := rfl
@[simp] theorem State.setPc_inputLatch (v : Word) : (s.setPc v).inputLatch = s.inputLatch := rfl
@[simp] theorem State.setPc_outputLatch (v : Word) : (s.setPc v).outputLatch = s.outputLatch := rfl
@[simp] theorem State.setPc_mem (v : Word) : (s.setPc v).mem = s.mem := rfl
@[simp] theorem State.setPc_run (v : Word) : (s.setPc v).run = s.run := rfl
@[simp] theorem State.setPc_inputChannel (v : Word) : (s.setPc v).inputChannel = s.inputChannel := rfl
@[simp] theorem State.setPc_outputChannel (v : Word) : (s.setPc v).outputChannel = s.outputChannel := rfl
@[simp] theorem State.setPc_params (v : Word) : (s.setPc v).params = s.params := rfl
@[simp] theorem State.setPc_draws (v : Word) : (s.setPc v).draws = s.draws := rfl

@[simp] theorem State.setSp_ac (v : Word) : (s.setSp v).ac = s.ac := rfl
@[simp] theorem State.setSp_pc (v : Word) : (s.setSp v).pc = s.pc := rfl
@[simp] theorem State.setSp_mar (v : Word) : (s.setSp v).mar = s.mar := rfl
@[simp] theorem State.setSp_mbr (v : Word) : (s.setSp v).mbr = s.mbr := rfl
@[simp] theorem State.setSp_ir (v : Word) : (s.setSp v).ir = s.ir := rfl
@[simp] theorem State.setSp_sp (v : Word) : (s.setSp v).sp = v := rfl
@[simp] theorem State.setSp_inputLatch (v : Word) : (s.setSp v).inputLatch = s.inputLatch := rfl
@[simp] theorem State.setSp_outputLatch (v : Word) : (s.setSp v).outputLatch = s.outputLatch := rfl
@[simp] theorem State.setSp_mem (v : Word) : (s.setSp v).mem = s.mem := rfl
@[simp] theorem State.setSp_run (v : Word) : (s.setSp v).run = s.run := rfl
@[simp] theorem State.setSp_inputChannel (v : Word) : (s.setSp v).inputChannel = s.inputChannel := rfl
@[simp] theorem State.setSp_outputChannel (v : Word) : (s.setSp v).outputChannel = s.outputChannel := rfl
@[simp] theorem State.setSp_params (v : Word) : (s.setSp v).params = s.params := rfl
@[simp] theorem State.setSp_draws (v : Word) : (s.setSp v).draws = s.draws := rfl

@[simp] theorem State.setMar_ac (v : Word) : (s.setMar v).ac = s.ac := rfl
@[simp] theorem State.setMar_pc (v : Word) : (s.setMar v).pc = s.pc := rfl
@[simp] theorem State.setMar_mar (v : Word) : (s.setMar v).mar = v := rfl
@[simp] theorem State.setMar_mbr (v : Word) : (s.setMar v).mbr = s.mbr := rfl
@[simp] theorem State.setMar_ir (v : Word) : (s.setMar v).ir = s.ir := rfl
@[simp] theorem State.setMar_sp (v : Word) : (s.setMar v).sp = s.sp := rfl
@[simp] theorem State.setMar_inputLatch (v : Word) : (s.setMar v).inputLatch = s.inputLatch := rfl
@[simp] theorem State.setMar_outputLatch (v : Word) : (s.setMar v).outputLatch = s.outputLatch := rfl
@[simp] theorem State.setMar_mem (v : Word) : (s.setMar v).mem = s.mem := rfl
@[simp] theorem State.setMar_run (v : Word) : (s.setMar v).run = s.run := rfl
@[simp] theorem State.setMar_inputChannel (v : Word) : (s.setMar v).inputChannel = s.inputChannel := rfl
@[simp] theorem State.setMar_outputChannel (v : Word) : (s.setMar v).outputChannel = s.outputChannel := rfl
@[simp] theorem State.setMar_params (v : Word) : (s.setMar v).params = s.params := rfl
@[simp] theorem State.setMar_draws (v : Word) : (s.setMar v).draws = s.draws := rfl

@[simp] theorem State.writeMem_ac (a : Nat) (v : Word) : (s.writeMem a v).ac = s.ac := rfl
@[simp] theorem State.writeMem_pc (a : Nat) (v : Word) : (s.writeMem a v).pc = s.pc := rfl
@[simp] theorem State.writeMem_mar (a : Nat) (v : Word) : (s.writeMem a v).mar = s.mar := rfl
@[simp] theorem State.writeMem_mbr (a : Nat) (v : Word) : (s.writeMem a v).mbr = s.mbr := rfl
@[simp] theorem State.writeMem_ir (a : Nat) (v : Word) : (s.writeMem a v).ir = s.ir := rfl
@[simp] theorem State.writeMem_sp (a : Nat) (v : Word) : (s.writeMem a v).sp = s.sp := rfl
@[simp] theorem State.writeMem_inputLatch (a : Nat) (v : Word) : (s.writeMem a v).inputLatch = s.inputLatch := rfl
@[simp] theorem State.writeMem_outputLatch (a : Nat) (v : Word) : (s.writeMem a v).outputLatch = s.outputLatch := rfl
@[simp] theorem State.writeMem_mem (a : Nat) (v : Word) : (s.writeMem a v).mem = Memory.write s.mem a v := rfl
@[simp] theorem State.writeMem_run (a : Nat) (v : Word) : (s.writeMem a v).run = s.run := rfl
@[simp] theorem State.writeMem_inputChannel (a : Nat) (v : Word) : (s.writeMem a v).inputChannel = s.inputChannel := rfl
@[simp] theorem State.writeMem_outputChannel (a : Nat) (v : Word) : (s.writeMem a v).outputChannel = s.outputChannel := rfl
@[simp] theorem State.writeMem_params (a : Nat) (v : Word) : (s.writeMem a v).params = s.params := rfl
@[simp] theorem State.writeMem_draws (a : Nat) (v : Word) : (s.writeMem a v).draws = s.draws := rfl

@[simp] theorem State.latchInput_ac (w : Word) (rest : List Word) : (s.latchInput w rest).ac = s.ac := rfl
@[simp] theorem State.latchInput_pc (w : Word) (rest : List Word) : (s.latchInput w rest).pc = s.pc := rfl
@[simp] theorem State.latchInput_mar (w : Word) (rest : List Word) : (s.latchInput w rest).mar = s.mar := rfl
@[simp] theorem State.latchInput_mbr (w : Word) (rest : List Word) : (s.latchInput w rest).mbr = s.mbr := rfl
@[simp] theorem State.latchInput_ir (w : Word) (rest : List Word) : (s.latchInput w rest).ir = s.ir := rfl
@[simp] theorem State.latchInput_sp (w : Word) (rest : List Word) : (s.latchInput w rest).sp = s.sp := rfl
@[simp] theorem State.latchInput_inputLatch (w : Word) (rest : List Word) : (s.latchInput w rest).inputLatch = w := rfl
@[simp] theorem State.latchInput_outputLatch (w : Word) (rest : List Word) : (s.latchInput w rest).outputLatch = s.outputLatch := rfl
@[simp] theorem State.latchInput_mem (w : Word) (rest : List Word) : (s.latchInput w rest).mem = s.mem := rfl
@[simp] theorem State.latchInput_run (w : Word) (rest : List Word) : (s.latchInput w rest).run = s.run := rfl
@[simp] theorem State.latchInput_inputChannel (w : Word) (rest : List Word) : (s.latchInput w rest).inputChannel = rest := rfl
@[simp] theorem State.latchInput_outputChannel (w : Word) (rest : List Word) : (s.latchInput w rest).outputChannel = s.outputChannel := rfl
@[simp] theorem State.latchInput_params (w : Word) (rest : List Word) : (s.latchInput w rest).params = s.params := rfl
@[simp] theorem State.latchInput_draws (w : Word) (rest : List Word) : (s.latchInput w rest).draws = s.draws := rfl

@[simp] theorem State.emitOutput_ac (v : Word) : (s.emitOutput v).ac = s.ac := rfl
@[simp] theorem State.emitOutput_pc (v : Word) : (s.emitOutput v).pc = s.pc := rfl
@[simp] theorem State.emitOutput_mar (v : Word) : (s.emitOutput v).mar = s.mar := rfl
@[simp] theorem State.emitOutput_mbr (v : Word) : (s.emitOutput v).mbr = s.mbr := rfl
@[simp] theorem State.emitOutput_ir (v : Word) : (s.emitOutput v).ir = s.ir := rfl
@[simp] theorem State.emitOutput_sp (v : Word) : (s.emitOutput v).sp = s.sp := rfl
@[simp] theorem State.emitOutput_inputLatch (v : Word) : (s.emitOutput v).inputLatch = s.inputLatch := rfl
@[simp] theorem State.emitOutput_outputLatch (v : Word) : (s.emitOutput v).outputLatch = v := rfl
@[simp] theorem State.emitOutput_mem (v : Word) : (s.emitOutput v).mem = s.mem := rfl
@[simp] theorem State.emitOutput_run (v : Word) : (s.emitOutput v).run = s.run := rfl
@[simp] theorem State.emitOutput_inputChannel (v : Word) : (s.emitOutput v).inputChannel = s.inputChannel := rfl
@[simp] theorem State.emitOutput_outputChannel (v : Word) : (s.emitOutput v).outputChannel = s.outputChannel ++ [v] := rfl
@[simp] theorem State.emitOutput_params (v : Word) : (s.emitOutput v).params = s.params := rfl
@[simp] theorem State.emitOutput_draws (v : Word) : (s.emitOutput v).draws = s.draws := rfl

@[simp] theorem State.setRun_ac (r : RunState) : (s.setRun r).ac = s.ac := rfl
@[simp] theorem State.setRun_pc (r : RunState) : (s.setRun r).pc = s.pc := rfl
@[simp] theorem State.setRun_mar (r : RunState) : (s.setRun r).mar = s.mar := rfl
@[simp] theorem State.setRun_mbr (r : RunState) : (s.setRun r).mbr = s.mbr := rfl
@[simp] theorem State.setRun_ir (r : RunState) : (s.setRun r).ir = s.ir := rfl
@[simp] theorem State.setRun_sp (r : RunState) : (s.setRun r).sp = s.sp := rfl
@[simp] theorem State.setRun_inputLatch (r : RunState) : (s.setRun r).inputLatch = s.inputLatch := rfl
@[simp] theorem State.setRun_outputLatch (r : RunState) : (s.setRun r).outputLatch = s.outputLatch := rfl
@[simp] theorem State.setRun_mem (r : RunState) : (s.setRun r).mem = s.mem := rfl
@[simp] theorem State.setRun_run (r : RunState) : (s.setRun r).run = r := rfl
@[simp] theorem State.setRun_inputChannel (r : RunState) : (s.setRun r).inputChannel = s.inputChannel := rfl
@[simp] theorem State.setRun_outputChannel (r : RunState) : (s.setRun r).outputChannel = s.outputChannel := rfl
@[simp] theorem State.setRun_params (r : RunState) : (s.setRun r).params = s.params := rfl
@[simp] theorem State.setRun_draws (r : RunState) : (s.setRun r).draws = s.draws := rfl

@[simp] theorem State.scratchMbr_ac : (s.scratchMbr).ac = s.ac := rfl
@[simp] theorem State.scratchMbr_pc : (s.scratchMbr).pc = s.pc := rfl
@[simp] theorem State.scratchMbr_mar : (s.scratchMbr).mar = s.mar := rfl
@[simp] theorem State.scratchMbr_mbr : (s.scratchMbr).mbr = Config.freeWord s.draws := rfl
@[simp] theorem State.scratchMbr_ir : (s.scratchMbr).ir = s.ir := rfl
@[simp] theorem State.scratchMbr_sp : (s.scratchMbr).sp = s.sp := rfl
@[simp] theorem State.scratchMbr_inputLatch : (s.scratchMbr).inputLatch = s.inputLatch := rfl
@[simp] theorem State.scratchMbr_outputLatch : (s.scratchMbr).outputLatch = s.outputLatch := rfl
@[simp] theorem State.scratchMbr_mem : (s.scratchMbr).mem = s.mem := rfl
@[simp] theorem State.scratchMbr_run : (s.scratchMbr).run = s.run := rfl
@[simp] theorem State.scratchMbr_inputChannel : (s.scratchMbr).inputChannel = s.inputChannel := rfl
@[simp] theorem State.scratchMbr_outputChannel : (s.scratchMbr).outputChannel = s.outputChannel := rfl
@[simp] theorem State.scratchMbr_params : (s.scratchMbr).params = s.params := rfl
@[simp] theorem State.scratchMbr_draws : (s.scratchMbr).draws = s.draws + 1 := rfl

@[simp] theorem State.scratchMarMbr_ac : (s.scratchMarMbr).ac = s.ac := rfl
@[simp] theorem State.scratchMarMbr_pc : (s.scratchMarMbr).pc = s.pc := rfl
@[simp] theorem State.scratchMarMbr_mar : (s.scratchMarMbr).mar = Config.freeWord s.draws := rfl
@[simp] theorem State.scratchMarMbr_mbr : (s.scratchMarMbr).mbr = Config.freeWord (s.draws + 1) := rfl
@[simp] theorem State.scratchMarMbr_ir : (s.scratchMarMbr).ir = s.ir := rfl
@[simp] theorem State.scratchMarMbr_sp : (s.scratchMarMbr).sp = s.sp := rfl
@[simp] theorem State.scratchMarMbr_inputLatch : (s.scratchMarMbr).inputLatch = s.inputLatch := rfl
@[simp] theorem State.scratchMarMbr_outputLatch : (s.scratchMarMbr).outputLatch = s.outputLatch := rfl
@[simp] theorem State.scratchMarMbr_mem : (s.scratchMarMbr).mem = s.mem := rfl
@[simp] theorem State.scratchMarMbr_run : (s.scratchMarMbr).run = s.run := rfl
@[simp] theorem State.scratchMarMbr_inputChannel : (s.scratchMarMbr).inputChannel = s.inputChannel := rfl
@[simp] theorem State.scratchMarMbr_outputChannel : (s.scratchMarMbr).outputChannel = s.outputChannel := rfl
@[simp] theorem State.scratchMarMbr_params : (s.scratchMarMbr).params = s.params := rfl
@[simp] theorem State.scratchMarMbr_draws : (s.scratchMarMbr).draws = s.draws + 2 := rfl

@[simp] theorem State.fetched_ac (w : Word) : (s.fetched w).ac = s.ac := rfl
@[simp] theorem State.fetched_pc (w : Word) : (s.fetched w).pc = s.pc + 1 := rfl
@[simp] theorem State.fetched_mar (w : Word) : (s.fetched w).mar = (operandField w).setWidth 16 := rfl
@[simp] theorem State.fetched_mbr (w : Word) : (s.fetched w).mbr = s.mbr := rfl
@[simp] theorem State.fetched_ir (w : Word) : (s.fetched w).ir = w := rfl
@[simp] theorem State.fetched_sp (w : Word) : (s.fetched w).sp = s.sp := rfl
@[simp] theorem State.fetched_inputLatch (w : Word) : (s.fetched w).inputLatch = s.inputLatch := rfl
@[simp] theorem State.fetched_outputLatch (w : Word) : (s.fetched w).outputLatch = s.outputLatch := rfl
@[simp] theorem State.fetched_mem (w : Word) : (s.fetched w).mem = s.mem := rfl
@[simp] theorem State.fetched_run (w : Word) : (s.fetched w).run = s.run := rfl
@[simp] theorem State.fetched_inputChannel (w : Word) : (s.fetched w).inputChannel = s.inputChannel := rfl
@[simp] theorem State.fetched_outputChannel (w : Word) : (s.fetched w).outputChannel = s.outputChannel := rfl
@[simp] theorem State.fetched_params (w : Word) : (s.fetched w).params = s.params := rfl
@[simp] theorem State.fetched_draws (w : Word) : (s.fetched w).draws = s.draws := rfl

@[simp] theorem State.supplyInput_ac (w : Word) : (s.supplyInput w).ac = s.ac := rfl
@[simp] theorem State.supplyInput_pc (w : Word) : (s.supplyInput w).pc = s.pc := rfl
@[simp] theorem State.supplyInput_mar (w : Word) : (s.supplyInput w).mar = s.mar := rfl
@[simp] theorem State.supplyInput_mbr (w : Word) : (s.supplyInput w).mbr = s.mbr := rfl
@[simp] theorem State.supplyInput_ir (w : Word) : (s.supplyInput w).ir = s.ir := rfl
@[simp] theorem State.supplyInput_sp (w : Word) : (s.supplyInput w).sp = s.sp := rfl
@[simp] theorem State.supplyInput_inputLatch (w : Word) : (s.supplyInput w).inputLatch = s.inputLatch := rfl
@[simp] theorem State.supplyInput_outputLatch (w : Word) : (s.supplyInput w).outputLatch = s.outputLatch := rfl
@[simp] theorem State.supplyInput_mem (w : Word) : (s.supplyInput w).mem = s.mem := rfl
@[simp] theorem State.supplyInput_run (w : Word) : (s.supplyInput w).run = s.run := rfl
@[simp] theorem State.supplyInput_inputChannel (w : Word) : (s.supplyInput w).inputChannel = s.inputChannel ++ [w] := rfl
@[simp] theorem State.supplyInput_outputChannel (w : Word) : (s.supplyInput w).outputChannel = s.outputChannel := rfl
@[simp] theorem State.supplyInput_params (w : Word) : (s.supplyInput w).params = s.params := rfl
@[simp] theorem State.supplyInput_draws (w : Word) : (s.supplyInput w).draws = s.draws := rfl

@[simp] theorem State.initialise_ac : (s.initialise).ac = Config.freeWord s.draws := rfl
@[simp] theorem State.initialise_pc : (s.initialise).pc = s.pc := rfl
@[simp] theorem State.initialise_mar : (s.initialise).mar = Config.freeWord (s.draws + 1) := rfl
@[simp] theorem State.initialise_mbr : (s.initialise).mbr = Config.freeWord (s.draws + 2) := rfl
@[simp] theorem State.initialise_ir : (s.initialise).ir = Config.freeWord (s.draws + 3) := rfl
@[simp] theorem State.initialise_sp : (s.initialise).sp = BitVec.ofNat 16 s.params.stackBase := rfl
@[simp] theorem State.initialise_inputLatch : (s.initialise).inputLatch = Config.freeWord (s.draws + 4) := rfl
@[simp] theorem State.initialise_outputLatch : (s.initialise).outputLatch = Config.freeWord (s.draws + 5) := rfl
@[simp] theorem State.initialise_mem : (s.initialise).mem = [] := rfl
@[simp] theorem State.initialise_run : (s.initialise).run = .running := rfl
@[simp] theorem State.initialise_inputChannel : (s.initialise).inputChannel = s.inputChannel := rfl
@[simp] theorem State.initialise_outputChannel : (s.initialise).outputChannel = [] := rfl
@[simp] theorem State.initialise_params : (s.initialise).params = s.params := rfl
@[simp] theorem State.initialise_draws : (s.initialise).draws = s.draws + 6 := rfl

end Sys2Proof.Machine
end

