-- ==== Sys2Proof/Laws/Ops.lean ====
section
/-! SUPPORT. What each shared operation can answer, said once. -/

namespace Sys2Proof.Machine

theorem State.inRange_iff (s : State) (a : Int) : s.inRange a = true ↔ 0 ≤ a ∧ a < (s.params.memSize : Int) := by
  simp [State.inRange]

@[simp] theorem directAddress_toNat (x : Operand) : (directAddress x).toNat = x.toNat := rfl

@[simp] theorem pointerAddress_toNat (p : Word) : (pointerAddress p).toNat = p.toNat := rfl

@[simp] theorem pushAddress_toNat (s : State) : (pushAddress s).toNat = s.sp.toNat := rfl

@[simp] theorem popAddress_toNat (s : State) : (popAddress s).toNat = s.sp.toNat - 1 := by
  simp [popAddress]

theorem inRange_directAddress (s : State) (x : Operand) :
    s.inRange (directAddress x) = true ↔ x.toNat < s.params.memSize := by
  simp [State.inRange, directAddress]

theorem inRange_pointerAddress (s : State) (p : Word) :
    s.inRange (pointerAddress p) = true ↔ p.toNat < s.params.memSize := by
  simp [State.inRange, pointerAddress]

theorem inRange_pushAddress (s : State) : s.inRange (pushAddress s) = true ↔ s.sp.toNat < s.params.memSize := by
  simp [State.inRange, pushAddress]

theorem inRange_popAddress (s : State) :
    s.inRange (popAddress s) = true ↔ 0 < s.sp.toNat ∧ s.sp.toNat ≤ s.params.memSize := by
  rw [State.inRange_iff, popAddress]
  omega

theorem fits16_iff (r : Int) : fits16 r = true ↔ -32768 ≤ r ∧ r ≤ 32767 := by
  simp [fits16]

/-- A read in range goes on with the word. -/
theorem onRead_inRange {s : State} {a : Int} (k : Word → Result) (h : s.inRange a = true) :
    onRead s a k = k (Memory.read s.mem a.toNat) := by simp [onRead, h]

/-- A read out of range raises. -/
theorem onRead_outOfRange {s : State} {a : Int} (k : Word → Result) (h : s.inRange a = false) :
    onRead s a k = raise (.addressOutOfRange a s.instrPc) s := by simp [onRead, h]

/-- A write in range goes on with the word written. -/
theorem onWrite_inRange {s : State} {a : Int} (v : Word) (k : State → Result) (h : s.inRange a = true) :
    onWrite s a v k = k (s.writeMem a.toNat v) := by simp [onWrite, h]

/-- A write out of range raises with nothing written. -/
theorem onWrite_outOfRange {s : State} {a : Int} (v : Word) (k : State → Result) (h : s.inRange a = false) :
    onWrite s a v k = raise (.addressOutOfRange a s.instrPc) s := by simp [onWrite, h]

/-- The state an error leaves: the one it was raised in, Faulted, with MBR redrawn. -/
def State.stopped (s : State) (e : RunError) : State := s.scratchMbr.setRun (.faulted e)

@[simp] theorem raise_eq (e : RunError) (s : State) : raise e s = .next (s.stopped e) := rfl

@[simp] theorem complete_eq (s : State) : complete s = .next s.scratchMbr := rfl

@[simp] theorem completeTransfer_eq (s : State) : completeTransfer s = .next s.scratchMarMbr := rfl

@[simp] theorem State.stopped_ac (s : State) (e : RunError) : (s.stopped e).ac = s.ac := rfl
@[simp] theorem State.stopped_pc (s : State) (e : RunError) : (s.stopped e).pc = s.pc := rfl
@[simp] theorem State.stopped_mar (s : State) (e : RunError) : (s.stopped e).mar = s.mar := rfl
@[simp] theorem State.stopped_ir (s : State) (e : RunError) : (s.stopped e).ir = s.ir := rfl
@[simp] theorem State.stopped_sp (s : State) (e : RunError) : (s.stopped e).sp = s.sp := rfl
@[simp] theorem State.stopped_inputLatch (s : State) (e : RunError) : (s.stopped e).inputLatch = s.inputLatch := rfl
@[simp] theorem State.stopped_outputLatch (s : State) (e : RunError) : (s.stopped e).outputLatch = s.outputLatch := rfl
@[simp] theorem State.stopped_mem (s : State) (e : RunError) : (s.stopped e).mem = s.mem := rfl
@[simp] theorem State.stopped_run (s : State) (e : RunError) : (s.stopped e).run = .faulted e := rfl
@[simp] theorem State.stopped_inputChannel (s : State) (e : RunError) : (s.stopped e).inputChannel = s.inputChannel := rfl
@[simp] theorem State.stopped_outputChannel (s : State) (e : RunError) : (s.stopped e).outputChannel = s.outputChannel := rfl
@[simp] theorem State.stopped_params (s : State) (e : RunError) : (s.stopped e).params = s.params := rfl

/-- What ADD and SUB do with an exact result: AC takes it, or the overflow is raised. -/
theorem accumulate_cases (r : Int) (s : State) :
    (fits16 r = true ∨ s.params.acOverflow = .wrap16) ∧ accumulate r s = .next (s.setAc (u16 r)).scratchMbr ∨
    (fits16 r = false ∧ s.params.acOverflow = .fault) ∧
      accumulate r s = .next (s.stopped (.arithmeticOverflow r s.instrPc)) := by
  unfold accumulate
  cases hf : fits16 r with
  | true => exact .inl ⟨.inl rfl, rfl⟩
  | false =>
    cases hp : s.params.acOverflow with
    | wrap16 => exact .inl ⟨.inr rfl, rfl⟩
    | fault => exact .inr ⟨⟨rfl, rfl⟩, rfl⟩

/-- An address that fails the range check (20_memory.md R53). -/
theorem inRange_false {s : State} {a : Int} (h : s.inRange a = false) : a < 0 ∨ (s.params.memSize : Int) ≤ a := by
  have hn : ¬ (0 ≤ a ∧ a < (s.params.memSize : Int)) := by rw [← State.inRange_iff, h]; simp
  omega

/-- A result that does not fit (41_load_store_arith.md R120). -/
theorem fits16_false {r : Int} (h : fits16 r = false) : r < -32768 ∨ 32767 < r := by
  have hn : ¬ (-32768 ≤ r ∧ r ≤ 32767) := by rw [← fits16_iff, h]; simp
  omega

/-- A result that fits is the signed reading of its pattern (00_scope.md R9). -/
theorem toInt_u16 {r : Int} (h1 : -32768 ≤ r) (h2 : r ≤ 32767) : (u16 r).toInt = r := by
  rw [u16, BitVec.toInt_ofInt, Int.bmod_def]
  norm_num
  omega

/-- The wrapped sum is the sum of the patterns. -/
theorem u16_exactSum (a m : Word) : u16 (exactSum a m) = a + m := by
  simp [u16, exactSum, s16, BitVec.ofInt_add]

/-- The wrapped difference is the difference of the patterns. -/
theorem u16_exactDifference (a m : Word) : u16 (exactDifference a m) = a - m := by
  apply BitVec.eq_of_toInt_eq
  rw [u16, exactDifference, BitVec.toInt_ofInt, BitVec.toInt_sub]

/-- When SKIPCOND skips (43_control.md R140). -/
theorem skips_iff (x : Operand) (ac : Word) :
    skips x ac = true ↔
      x = 0x000#12 ∧ ac.toInt < 0 ∨ x = 0x400#12 ∧ ac.toInt = 0 ∨ x = 0x800#12 ∧ 0 < ac.toInt := by
  unfold skips
  by_cases h0 : x = 0x000#12
  · subst h0; simp
  by_cases h4 : x = 0x400#12
  · subst h4; simp
  by_cases h8 : x = 0x800#12
  · subst h8; simp
  simp [h0, h4, h8]

/-- The memory has at most 4096 words (00_scope.md R7). -/
theorem memSize_le_of_wf {p : Params} (h : p.wf = true) : p.memSize ≤ 4096 := by
  simp only [Params.wf, Bool.and_eq_true, decide_eq_true_eq] at h
  omega

/-- A register below 65535 counts up exactly. -/
theorem toNat_add_one {w : Word} (h : w.toNat < 65535) : (w + 1).toNat = w.toNat + 1 := by
  rw [BitVec.toNat_add]
  simp
  omega

/-- A register above 0 counts down exactly. -/
theorem toNat_sub_one {w : Word} (h : 0 < w.toNat) : (w - 1).toNat = w.toNat - 1 := by
  rw [BitVec.toNat_sub]
  simp
  omega

end Sys2Proof.Machine
end

