-- ==== Sys2Proof/Laws/Exec.lean ====
section
/-! SUPPORT. What the execute phase of each instruction can do, said once: its effect, or the error it raises. -/

namespace Sys2Proof.Machine

/-- `t` is what the instruction leaves when it completes from `s`. -/
def Effect : Instr → State → State → Prop
  | .load x, s, t => x.toNat < s.params.memSize ∧ t = (s.setAc (Memory.read s.mem x.toNat)).scratchMbr
  | .store x, s, t => x.toNat < s.params.memSize ∧ t = (s.writeMem x.toNat s.ac).scratchMbr
  | .add x, s, t =>
    x.toNat < s.params.memSize ∧
      (fits16 (exactSum s.ac (Memory.read s.mem x.toNat)) = true ∨ s.params.acOverflow = .wrap16) ∧
      t = (s.setAc (u16 (exactSum s.ac (Memory.read s.mem x.toNat)))).scratchMbr
  | .sub x, s, t =>
    x.toNat < s.params.memSize ∧
      (fits16 (exactDifference s.ac (Memory.read s.mem x.toNat)) = true ∨ s.params.acOverflow = .wrap16) ∧
      t = (s.setAc (u16 (exactDifference s.ac (Memory.read s.mem x.toNat)))).scratchMbr
  | .input, s, t => ∃ w rest, s.inputChannel = w :: rest ∧ t = ((s.latchInput w rest).setAc w).scratchMbr
  | .output, s, t => t = (s.emitOutput s.ac).scratchMbr
  | .halt, s, t => t = (s.setRun .halted).scratchMbr
  | .skipcond x, s, t => t = (if skips x s.ac then s.setPc (s.pc + 1) else s).scratchMbr
  | .jmp x, s, t => t = (s.setPc (targetAddress x)).scratchMarMbr
  | .call x, s, t =>
    s.sp.toNat < s.params.memSize ∧
      t = (((s.writeMem s.sp.toNat s.pc).setSp (s.sp + 1)).setPc (targetAddress x + 1)).scratchMarMbr
  | .loadi x, s, t =>
    x.toNat < s.params.memSize ∧ (Memory.read s.mem x.toNat).toNat < s.params.memSize ∧
      t = (s.setAc (Memory.read s.mem (Memory.read s.mem x.toNat).toNat)).scratchMbr
  | .ret, s, t =>
    (0 < s.sp.toNat ∧ s.sp.toNat ≤ s.params.memSize) ∧
      t = ((s.setPc (Memory.read s.mem (s.sp.toNat - 1))).setSp (s.sp - 1)).scratchMarMbr
  | .storei x, s, t =>
    x.toNat < s.params.memSize ∧ (Memory.read s.mem x.toNat).toNat < s.params.memSize ∧
      t = (s.writeMem (Memory.read s.mem x.toNat).toNat s.ac).scratchMbr
  | .push, s, t =>
    s.sp.toNat < s.params.memSize ∧ t = ((s.writeMem s.sp.toNat s.ac).setSp (s.sp + 1)).scratchMbr
  | .pop x, s, t =>
    (0 < s.sp.toNat ∧ s.sp.toNat ≤ s.params.memSize) ∧ x.toNat < s.params.memSize ∧
      t = ((s.writeMem x.toNat (Memory.read s.mem (s.sp.toNat - 1))).setSp (s.sp - 1)).scratchMbr

/-- An access outside the array: the address and the record. -/
def AddressError (s : State) (a : Int) (e : RunError) : Prop :=
  s.inRange a = false ∧ e = .addressOutOfRange a s.instrPc

/-- The instruction raises `e` in the state `s` that fetch and decode left. -/
def Raises : Instr → State → RunError → Prop
  | .load x, s, e => AddressError s (directAddress x) e
  | .store x, s, e => AddressError s (directAddress x) e
  | .add x, s, e =>
    AddressError s (directAddress x) e ∨
      x.toNat < s.params.memSize ∧ s.params.acOverflow = .fault ∧
        fits16 (exactSum s.ac (Memory.read s.mem x.toNat)) = false ∧
        e = .arithmeticOverflow (exactSum s.ac (Memory.read s.mem x.toNat)) s.instrPc
  | .sub x, s, e =>
    AddressError s (directAddress x) e ∨
      x.toNat < s.params.memSize ∧ s.params.acOverflow = .fault ∧
        fits16 (exactDifference s.ac (Memory.read s.mem x.toNat)) = false ∧
        e = .arithmeticOverflow (exactDifference s.ac (Memory.read s.mem x.toNat)) s.instrPc
  | .input, _, _ => False
  | .output, _, _ => False
  | .halt, _, _ => False
  | .skipcond _, _, _ => False
  | .jmp _, _, _ => False
  | .call _, s, e => AddressError s (pushAddress s) e
  | .loadi x, s, e =>
    AddressError s (directAddress x) e ∨
      x.toNat < s.params.memSize ∧ AddressError s (pointerAddress (Memory.read s.mem x.toNat)) e
  | .ret, s, e => AddressError s (popAddress s) e
  | .storei x, s, e =>
    AddressError s (directAddress x) e ∨
      x.toNat < s.params.memSize ∧ AddressError s (pointerAddress (Memory.read s.mem x.toNat)) e
  | .push, s, e => AddressError s (pushAddress s) e
  | .pop x, s, e =>
    AddressError s (popAddress s) e ∨ s.inRange (popAddress s) = true ∧ AddressError s (directAddress x) e

/-- The execute phase of an instruction: its effect, an error, or (INPUT with no word pending) no step. -/
theorem exec_cases (i : Instr) (s : State) :
    (∃ t, exec i s = .next t ∧ Effect i s t) ∨
    (∃ e, exec i s = .next (s.stopped e) ∧ Raises i s e) ∨
    (i = .input ∧ s.inputChannel = [] ∧ exec i s = .fault .inputWait) := by
  cases i with
  | load x =>
    cases h : s.inRange (directAddress x) with
    | true => exact .inl ⟨_, by simp [exec, execLoad, onRead, h], (inRange_directAddress s x).1 h, rfl⟩
    | false => exact .inr (.inl ⟨_, by simp [exec, execLoad, onRead, h], h, rfl⟩)
  | store x =>
    cases h : s.inRange (directAddress x) with
    | true => exact .inl ⟨_, by simp [exec, execStore, onWrite, h], (inRange_directAddress s x).1 h, rfl⟩
    | false => exact .inr (.inl ⟨_, by simp [exec, execStore, onWrite, h], h, rfl⟩)
  | add x =>
    cases h : s.inRange (directAddress x) with
    | false => exact .inr (.inl ⟨_, by simp [exec, execAdd, onRead, h], .inl ⟨h, rfl⟩⟩)
    | true =>
      have hx := (inRange_directAddress s x).1 h
      have he : exec (.add x) s = accumulate (exactSum s.ac (Memory.read s.mem x.toNat)) s := by
        simp [exec, execAdd, onRead, h]
      rcases accumulate_cases (exactSum s.ac (Memory.read s.mem x.toNat)) s with ⟨hf, ha⟩ | ⟨⟨hf, hp⟩, ha⟩
      · exact .inl ⟨_, he.trans ha, hx, hf, rfl⟩
      · exact .inr (.inl ⟨_, he.trans ha, .inr ⟨hx, hp, hf, rfl⟩⟩)
  | sub x =>
    cases h : s.inRange (directAddress x) with
    | false => exact .inr (.inl ⟨_, by simp [exec, execSub, onRead, h], .inl ⟨h, rfl⟩⟩)
    | true =>
      have hx := (inRange_directAddress s x).1 h
      have he : exec (.sub x) s = accumulate (exactDifference s.ac (Memory.read s.mem x.toNat)) s := by
        simp [exec, execSub, onRead, h]
      rcases accumulate_cases (exactDifference s.ac (Memory.read s.mem x.toNat)) s with ⟨hf, ha⟩ | ⟨⟨hf, hp⟩, ha⟩
      · exact .inl ⟨_, he.trans ha, hx, hf, rfl⟩
      · exact .inr (.inl ⟨_, he.trans ha, .inr ⟨hx, hp, hf, rfl⟩⟩)
  | input =>
    cases h : s.inputChannel with
    | nil => exact .inr (.inr ⟨rfl, rfl, by simp [exec, execInput, h]⟩)
    | cons w rest => exact .inl ⟨_, by simp only [exec, execInput, h, complete_eq], w, rest, h, rfl⟩
  | output => exact .inl ⟨_, rfl, rfl⟩
  | halt => exact .inl ⟨_, rfl, rfl⟩
  | skipcond x => exact .inl ⟨_, rfl, rfl⟩
  | jmp x => exact .inl ⟨_, rfl, rfl⟩
  | call x =>
    cases h : s.inRange (pushAddress s) with
    | true => exact .inl ⟨_, by simp [exec, execCall, onPush, onWrite, h], (inRange_pushAddress s).1 h, rfl⟩
    | false => exact .inr (.inl ⟨_, by simp [exec, execCall, onPush, onWrite, h], h, rfl⟩)
  | loadi x =>
    cases h : s.inRange (directAddress x) with
    | false => exact .inr (.inl ⟨_, by simp [exec, execLoadi, onPointer, onRead, h], .inl ⟨h, rfl⟩⟩)
    | true =>
      have hx := (inRange_directAddress s x).1 h
      cases hp : s.inRange (pointerAddress (Memory.read s.mem x.toNat)) with
      | false => exact .inr (.inl ⟨_, by simp [exec, execLoadi, onPointer, onRead, h, hp], .inr ⟨hx, hp, rfl⟩⟩)
      | true =>
        exact .inl ⟨_, by simp [exec, execLoadi, onPointer, onRead, h, hp], hx, (inRange_pointerAddress s _).1 hp, rfl⟩
  | ret =>
    cases h : s.inRange (popAddress s) with
    | false => exact .inr (.inl ⟨_, by simp [exec, execRet, onRead, h], h, rfl⟩)
    | true => exact .inl ⟨_, by simp [exec, execRet, onRead, h], (inRange_popAddress s).1 h, rfl⟩
  | storei x =>
    cases h : s.inRange (directAddress x) with
    | false => exact .inr (.inl ⟨_, by simp [exec, execStorei, onPointer, onRead, h], .inl ⟨h, rfl⟩⟩)
    | true =>
      have hx := (inRange_directAddress s x).1 h
      cases hp : s.inRange (pointerAddress (Memory.read s.mem x.toNat)) with
      | false =>
        exact .inr (.inl ⟨_, by simp [exec, execStorei, onPointer, onRead, onWrite, h, hp], .inr ⟨hx, hp, rfl⟩⟩)
      | true =>
        exact .inl ⟨_, by simp [exec, execStorei, onPointer, onRead, onWrite, h, hp], hx,
          (inRange_pointerAddress s _).1 hp, rfl⟩
  | push =>
    cases h : s.inRange (pushAddress s) with
    | true => exact .inl ⟨_, by simp [exec, execPush, onPush, onWrite, h], (inRange_pushAddress s).1 h, rfl⟩
    | false => exact .inr (.inl ⟨_, by simp [exec, execPush, onPush, onWrite, h], h, rfl⟩)
  | pop x =>
    cases h : s.inRange (popAddress s) with
    | false => exact .inr (.inl ⟨_, by simp [exec, execPop, onRead, h], .inl ⟨h, rfl⟩⟩)
    | true =>
      cases hx : s.inRange (directAddress x) with
      | false => exact .inr (.inl ⟨_, by simp [exec, execPop, onRead, onWrite, h, hx], .inr ⟨h, hx, rfl⟩⟩)
      | true =>
        exact .inl ⟨_, by simp [exec, execPop, onRead, onWrite, h, hx], (inRange_popAddress s).1 h,
          (inRange_directAddress s x).1 hx, rfl⟩

/-- The inversion lemma of `exec`: a next state is the instruction's effect or the stop on the error it raises. -/
theorem exec_next {i : Instr} {s t : State} (h : exec i s = .next t) :
    Effect i s t ∨ ∃ e, Raises i s e ∧ t = s.stopped e := by
  rcases exec_cases i s with ⟨u, hu, he⟩ | ⟨e, hu, hr⟩ | ⟨-, -, hu⟩
  · cases hu.symm.trans h
    exact .inl he
  · cases hu.symm.trans h
    exact .inr ⟨e, hr, rfl⟩
  · cases hu.symm.trans h

/-- No execute phase is refused. -/
theorem exec_ne_refused (i : Instr) (s : State) (r : Refusal) : exec i s ≠ .refused r := by
  intro h
  rcases exec_cases i s with ⟨u, hu, -⟩ | ⟨e, hu, -⟩ | ⟨-, -, hu⟩ <;> cases hu.symm.trans h

/-- An instruction that completes leaves the run state, and HALT makes it Halted. -/
theorem effect_run {i : Instr} {s t : State} (h : Effect i s t) : t.run = s.run ∨ i = .halt ∧ t.run = .halted := by
  cases i <;> simp only [Effect] at h
  case halt => subst h; exact .inr ⟨rfl, rfl⟩
  case input => obtain ⟨w, r, h, rfl⟩ := h; exact .inl rfl
  case skipcond => subst h; split <;> exact .inl rfl
  all_goals
    first
    | (subst h; exact .inl rfl)
    | (obtain ⟨_, rfl⟩ := h; exact .inl rfl)
    | (obtain ⟨_, _, rfl⟩ := h; exact .inl rfl)

/-- What every instruction that completes leaves: IR, the parameters, and MAR except in a control transfer (10_state.md R24, R29). -/
theorem effect_frame {i : Instr} {s t : State} (h : Effect i s t) :
    t.ir = s.ir ∧ t.params = s.params ∧
      ((∀ x, i ≠ .jmp x) → (∀ x, i ≠ .call x) → i ≠ .ret → t.mar = s.mar) := by
  cases i <;> simp only [Effect] at h
  case input => obtain ⟨w, r, h, rfl⟩ := h; exact ⟨rfl, rfl, fun _ _ _ => rfl⟩
  case skipcond => subst h; split <;> exact ⟨rfl, rfl, fun _ _ _ => rfl⟩
  case jmp x => subst h; exact ⟨rfl, rfl, fun h => absurd rfl (h x)⟩
  case call x => obtain ⟨_, rfl⟩ := h; exact ⟨rfl, rfl, fun _ h => absurd rfl (h x)⟩
  case ret => obtain ⟨_, rfl⟩ := h; exact ⟨rfl, rfl, fun _ _ h => absurd rfl h⟩
  all_goals
    first
    | (subst h; exact ⟨rfl, rfl, fun _ _ _ => rfl⟩)
    | (obtain ⟨_, rfl⟩ := h; exact ⟨rfl, rfl, fun _ _ _ => rfl⟩)
    | (obtain ⟨_, _, rfl⟩ := h; exact ⟨rfl, rfl, fun _ _ _ => rfl⟩)

/-- The errors of an execute phase are an address outside the memory, and an overflow of ADD or SUB (60_exceptions.md R173, R174). -/
theorem raises_cases {i : Instr} {s : State} {e : RunError} (h : Raises i s e) :
    (∃ a, AddressError s a e ∧ i ≠ .input ∧ i ≠ .output ∧ i ≠ .halt ∧ (∀ x, i ≠ .skipcond x) ∧ (∀ x, i ≠ .jmp x)) ∨
    (∃ r, e = .arithmeticOverflow r s.instrPc ∧ s.params.acOverflow = .fault ∧ fits16 r = false ∧
      ((∃ x, i = .add x) ∨ (∃ x, i = .sub x))) := by
  cases i <;> simp only [Raises] at h
  case add x =>
    rcases h with h | ⟨_, h1, h2, h3⟩
    · exact .inl ⟨_, h, by simp⟩
    · exact .inr ⟨_, h3, h1, h2, .inl ⟨_, rfl⟩⟩
  case sub x =>
    rcases h with h | ⟨_, h1, h2, h3⟩
    · exact .inl ⟨_, h, by simp⟩
    · exact .inr ⟨_, h3, h1, h2, .inr ⟨_, rfl⟩⟩
  case loadi x => rcases h with h | ⟨_, h⟩ <;> exact .inl ⟨_, h, by simp⟩
  case storei x => rcases h with h | ⟨_, h⟩ <;> exact .inl ⟨_, h, by simp⟩
  case pop x => rcases h with h | ⟨_, h⟩ <;> exact .inl ⟨_, h, by simp⟩
  all_goals exact .inl ⟨_, h, by simp⟩

end Sys2Proof.Machine
end

