-- ==== Sys2Proof/Laws/PerInstr.lean ====
section
/-! SUPPORT. A fact of every instruction as syntax, one lemma per constructor: the word it is encoded as has its opcode in bits 15..12 and its
operand in bits 11..0 (30_encoding.md R71, R83). -/

namespace Sys2Proof.Laws.EncodeFields

/-- The fields of the encoded word. -/
def Statement (i : Instr) : Prop := opcodeField (encode i) = i.opcode.code ∧ operandField (encode i) = i.operand

theorem all (i : Instr) : Statement i := ⟨opcodeField_encode i, operandField_encode i⟩

theorem load (x : Operand) : Statement (.load x) := all _
theorem store (x : Operand) : Statement (.store x) := all _
theorem add (x : Operand) : Statement (.add x) := all _
theorem sub (x : Operand) : Statement (.sub x) := all _
theorem input : Statement .input := all _
theorem output : Statement .output := all _
theorem halt : Statement .halt := all _
theorem skipcond (x : Operand) : Statement (.skipcond x) := all _
theorem jmp (x : Operand) : Statement (.jmp x) := all _
theorem call (x : Operand) : Statement (.call x) := all _
theorem loadi (x : Operand) : Statement (.loadi x) := all _
theorem ret : Statement .ret := all _
theorem storei (x : Operand) : Statement (.storei x) := all _
theorem push : Statement .push := all _
theorem pop (x : Operand) : Statement (.pop x) := all _

end Sys2Proof.Laws.EncodeFields
end

