-- ==== Sys2Proof/Laws/Step.lean ====
section
/-! SUPPORT. What one step of the engine can do, said once. -/

namespace Sys2Proof.Machine

/-- A fetch in range reads the word at PC. -/
theorem State.fetchWord_inRange {s : State} (h : s.pc.toNat < s.params.memSize) :
    s.fetchWord = some (Memory.read s.mem s.pc.toNat) := by simp [State.fetchWord, h]

/-- A fetch out of range reads nothing. -/
theorem State.fetchWord_outOfRange {s : State} (h : s.params.memSize ≤ s.pc.toNat) : s.fetchWord = none := by
  simp [State.fetchWord, Nat.not_lt.2 h]

/-- The step of a Running engine is one turn of the loop. -/
theorem step_running {s : State} (h : s.run = .running) : step s = cycle s := by
  simp [step, engineStep, h]

/-- The step of a Running engine whose fetch fails. -/
theorem step_fetchFails {s : State} (h : s.run = .running) (hp : s.params.memSize ≤ s.pc.toNat) :
    step s = .next ((s.setMar s.pc).stopped (.addressOutOfRange s.pc.toNat s.pc)) := by
  simp [step_running h, cycle, State.fetchWord_outOfRange hp, raiseFetch]

/-- The step of a Running engine whose fetch succeeds. -/
theorem step_fetched {s : State} (h : s.run = .running) (hp : s.pc.toNat < s.params.memSize) :
    step s = execute s (Memory.read s.mem s.pc.toNat) := by
  simp [step_running h, cycle, State.fetchWord_inRange hp]

/-- The engine runs the unit `i` of the word it fetched: the word decodes to `i` and its opcode is enabled. -/
def Runs (s : State) (i : Instr) : Prop :=
  s.pc.toNat < s.params.memSize ∧ decodeWord (Memory.read s.mem s.pc.toNat) = .instr i ∧ i.wellFormed s.params = true

/-- The step that runs a unit. -/
theorem step_runs {s : State} {i : Instr} (h : s.run = .running) (hi : Runs s i) :
    step s = exec i (s.fetched (Memory.read s.mem s.pc.toNat)) := by
  simp [step_fetched h hi.1, execute, hi.2.1, hi.2.2]

/-- The step on a word that no unit runs for. -/
theorem step_unknown {s : State} (h : s.run = .running) (hp : s.pc.toNat < s.params.memSize)
    (hu : ∀ i, decodeWord (Memory.read s.mem s.pc.toNat) = .instr i → i.wellFormed s.params = false) :
    step s = .next ((s.fetched (Memory.read s.mem s.pc.toNat)).stopped
      (.unknownOpcode (opcodeInPlace (Memory.read s.mem s.pc.toNat))
        (s.fetched (Memory.read s.mem s.pc.toNat)).instrPc)) := by
  rw [step_fetched h hp, execute]
  cases hd : decodeWord (Memory.read s.mem s.pc.toNat) with
  | unknownOpcode o => rfl
  | instr i => simp [hu i hd, raiseUnknownOpcode]

@[simp] theorem State.fetched_instrPc (s : State) (w : Word) : (s.fetched w).instrPc = s.pc := by
  simp [State.instrPc]

/-- The inversion lemma of `step`: from a Running engine, one of five things happens. -/
theorem step_cases {s : State} (h : s.run = .running) :
    (s.params.memSize ≤ s.pc.toNat ∧
      step s = .next ((s.setMar s.pc).stopped (.addressOutOfRange s.pc.toNat s.pc))) ∨
    (s.pc.toNat < s.params.memSize ∧
      (∀ i, decodeWord (Memory.read s.mem s.pc.toNat) = .instr i → i.wellFormed s.params = false) ∧
      step s = .next ((s.fetched (Memory.read s.mem s.pc.toNat)).stopped
        (.unknownOpcode (opcodeInPlace (Memory.read s.mem s.pc.toNat)) s.pc))) ∨
    (Runs s .input ∧ s.inputChannel = [] ∧ step s = .fault .inputWait) ∨
    (∃ i t, Runs s i ∧ Effect i (s.fetched (Memory.read s.mem s.pc.toNat)) t ∧ step s = .next t) ∨
    (∃ i e, Runs s i ∧ Raises i (s.fetched (Memory.read s.mem s.pc.toNat)) e ∧
      step s = .next ((s.fetched (Memory.read s.mem s.pc.toNat)).stopped e)) := by
  rcases Nat.lt_or_ge s.pc.toNat s.params.memSize with hp | hp
  case inr => exact .inl ⟨hp, step_fetchFails h hp⟩
  by_cases hu : ∀ i, decodeWord (Memory.read s.mem s.pc.toNat) = .instr i → i.wellFormed s.params = false
  · exact .inr (.inl ⟨hp, hu, by simpa using step_unknown h hp hu⟩)
  push Not at hu
  obtain ⟨i, hd, hw⟩ := hu
  have hr : Runs s i := ⟨hp, hd, by simpa using hw⟩
  rcases exec_cases i (s.fetched (Memory.read s.mem s.pc.toNat)) with ⟨t, ht, he⟩ | ⟨e, ht, he⟩ | ⟨rfl, hc, ht⟩
  · exact .inr (.inr (.inr (.inl ⟨i, t, hr, he, (step_runs h hr).trans ht⟩)))
  · exact .inr (.inr (.inr (.inr ⟨i, e, hr, he, (step_runs h hr).trans ht⟩)))
  · exact .inr (.inr (.inl ⟨hr, hc, (step_runs h hr).trans ht⟩))

/-- Only a Running engine has a next state (10_state.md R33). -/
theorem run_of_step {s t : State} (h : step s = .next t) : s.run = .running := by
  cases hr : s.run with
  | running => rfl
  | halted => simp [step, engineStep, hr] at h
  | faulted e => simp [step, engineStep, hr] at h

/-- A step that runs a unit and answers a next state: its effect or the stop on its error. -/
theorem step_unit {s t : State} {i : Instr} (h : s.run = .running) (hi : Runs s i)
    (hs : step s = .next t) :
    Effect i (s.fetched (Memory.read s.mem s.pc.toNat)) t ∨
      ∃ e, Raises i (s.fetched (Memory.read s.mem s.pc.toNat)) e ∧
        t = (s.fetched (Memory.read s.mem s.pc.toNat)).stopped e :=
  exec_next ((step_runs h hi).symm.trans hs)

/-- The next fetch of a state that `withFetchWord` prepared reads that word (log entry 17). -/
theorem fetchWord_withFetchWord {s : State} (w : Word) (h : s.pc.toNat < s.params.memSize) :
    (s.withFetchWord 16 w.toNat).fetchWord = some w := by
  have hw : w.toNat % 65536 = w.toNat := Nat.mod_eq_of_lt w.isLt
  simp [State.withFetchWord, placeAtPc, h, State.fetchWord, hw]

end Sys2Proof.Machine
end

