-- ==== Sys2Proof/Tests/Slice0.lean ====
section
/-! SUPPORT. Tests, with expected results from the tables of 30_encoding.md R72 and the vectors of 95_test_vectors.md, and for each statement
with hypotheses a witness that meets them. -/

namespace Sys2Proof.Tests

open Sys2Proof.Machine

/-! ## Helpers -/

/-- A state to run one instruction in: reset, with AC, PC, SP and the listed words. -/
def boot (ac pc sp : Word) (cells : Memory) : State := { State.reset with ac := ac, pc := pc, sp := sp, mem := cells }

/-- The same with AC_OVERFLOW = fault. -/
def bootFault (ac : Word) (cells : Memory) : State :=
  { boot ac 0 2000 cells with params := { Params.hardware with acOverflow := .fault } }

/-- The same with a memory of 4095 words, so that the operand 0xFFF lies outside it. -/
def bootSmall (ac pc sp : Word) (cells : Memory) : State :=
  { boot ac pc sp cells with params := { Params.hardware with memSize := 4095 } }

/-- The same with words pending on the input channel. -/
def bootInput (pc : Word) (cells : Memory) (pending : List Word) : State :=
  { boot 1 pc 2000 cells with inputChannel := pending }

/-- What the next state shows through `f`, if there is one. -/
def shows {α : Type} (r : Result) (f : State → α) : Option α :=
  match r with
  | .next t => some (f t)
  | .fault _ => none
  | .refused _ => none

/-- The state two steps on. -/
def twice (s : State) : Result :=
  match step s with
  | .next t => step t
  | .fault f => .fault f
  | .refused r => .refused r

/-! ## Well-formedness -/

/-- With ENABLED_OPCODES lacking PUSH, PUSH is ill formed and the engine does not run it (30_encoding.md R77; V-UNK-3). -/
theorem test_wellFormed_refuses_disabled :
    Instr.wellFormed { Params.hardware with enabled := [.load, .halt] } .push = false ∧
    Instr.wellFormed { Params.hardware with enabled := [.load, .halt] } .halt = true ∧
    shows (step { boot 1 0 2000 [(0, 0xE000)] with params := { Params.hardware with enabled := [.load, .halt] } })
      (fun t => (t.run, t.pc, t.sp, t.mem)) =
      some (.faulted (.unknownOpcode 0xE000 0), 1, 2000, [(0, 0xE000)]) := by decide

/-- Each constraint of 00_scope.md R7 is checked, and the defaults meet them. -/
theorem test_params_wf :
    Params.hardware.wf = true ∧
    Params.wf { Params.hardware with memSize := 4097 } = false ∧
    Params.wf { Params.hardware with memSize := 0, stackBase := 0 } = false ∧
    Params.wf { Params.hardware with stackBase := 4097 } = false ∧
    Params.wf { Params.hardware with startAddress := 4096 } = false ∧
    Params.wf { Params.hardware with enabled := [.load, .load] } = false := by decide

/-- The canonical form refuses a zero word, a repeated address and a falling address. -/
theorem test_memory_wf :
    Memory.wf [(0, 1), (4095, 2)] = true ∧ Memory.wf [(3, 0)] = false ∧ Memory.wf [(3, 1), (3, 2)] = false ∧
    Memory.wf [(3, 1), (2, 2)] = false ∧ Memory.below 4096 [(4096, 1)] = false := by decide

/-! ## Decoding: a word of each row, written out from the patterns of 30_encoding.md R72 -/

theorem test_decode_load : decodeWord 0b0001101010111100#16 = .instr (.load 0xABC) := by decide
theorem test_decode_store : decodeWord 0b0010101010111100#16 = .instr (.store 0xABC) := by decide
theorem test_decode_add : decodeWord 0b0011101010111100#16 = .instr (.add 0xABC) := by decide
theorem test_decode_sub : decodeWord 0b0100101010111100#16 = .instr (.sub 0xABC) := by decide
theorem test_decode_input : decodeWord 0b0101000000000000#16 = .instr .input := by decide
theorem test_decode_output : decodeWord 0b0110000000000000#16 = .instr .output := by decide
theorem test_decode_halt : decodeWord 0b0111000000000000#16 = .instr .halt := by decide
theorem test_decode_skipcond : decodeWord 0b1000100000000000#16 = .instr (.skipcond 0x800) := by decide
theorem test_decode_jmp : decodeWord 0b1001101010111100#16 = .instr (.jmp 0xABC) := by decide
theorem test_decode_call : decodeWord 0b1010101010111100#16 = .instr (.call 0xABC) := by decide
theorem test_decode_loadi : decodeWord 0b1011101010111100#16 = .instr (.loadi 0xABC) := by decide
theorem test_decode_ret : decodeWord 0b1100000000000000#16 = .instr .ret := by decide
theorem test_decode_storei : decodeWord 0b1101101010111100#16 = .instr (.storei 0xABC) := by decide
theorem test_decode_push : decodeWord 0b1110000000000000#16 = .instr .push := by decide
theorem test_decode_pop : decodeWord 0b1111101010111100#16 = .instr (.pop 0xABC) := by decide

/-- Opcode 0x0 is refused by name; the unused bits of an instruction without operand do not matter (30_encoding.md R74, R75). -/
theorem test_decode_unknown_and_ignored :
    decodeWord 0b0000101010111100#16 = .unknownOpcode 0x0000 ∧ decodeWord 0b0101111111111111#16 = .instr .input ∧
    decodeTableWord 16 0x0ABC = none ∧ decodeTableWord 16 0xF030 = some (.pop 0x030) := by decide

/-- The words of the assembler (95_test_vectors.md, Round trip). -/
theorem test_encode :
    encode (.load 0xABC) = 0x1ABC ∧ encode .halt = 0x7000 ∧ encode (.skipcond 0x400) = 0x8400 ∧ encode .ret = 0xC000 ∧
    encode (.pop 0xABC) = 0xFABC := by decide

/-! ## Steps -/

/-- V-LOAD-1. -/
theorem test_load : shows (step (boot 0x1111 0 2000 [(0, 0x1010), (0x010, 0xABCD)])) (fun t => (t.ac, t.pc, t.mar, t.ir)) =
    some (0xABCD, 1, 0x010, 0x1010) := by decide
/-- V-LOAD-2: the LOAD loads its own word. -/
theorem test_load_own_word : shows (step (boot 0x1111 0 2000 [(0, 0x1000)])) (fun t => t.ac) = some 0x1000 := by decide

/-- V-STORE-2: the STORE overwrites itself. -/
theorem test_store_own_word : shows (step (boot 0xBEEF 0 2000 [(0, 0x2000)])) (fun t => (t.mem, t.ac)) =
    some ([(0, 0xBEEF)], 0xBEEF) := by decide
/-- V-STORE-3. -/
theorem test_store_top : shows (step (boot 0xBEEF 0 2000 [(0, 0x2FFF)])) (fun t => (t.mem, t.pc)) =
    some ([(0, 0x2FFF), (4095, 0xBEEF)], 1) := by decide

/-- V-ADD-6 under `wrap16`. -/
theorem test_add_wraps : shows (step (boot 0x8000 0 2000 [(0, 0x3010), (0x010, 0xFFFF)])) (fun t => (t.ac, t.run)) =
    some (0x7FFF, .running) := by decide
/-- V-ADD-7 under `fault`. -/
theorem test_add_overflow : shows (step (bootFault 0x8000 [(0, 0x3010), (0x010, 0x8000)])) (fun t => (t.ac, t.pc, t.run)) =
    some (0x8000, 1, .faulted (.arithmeticOverflow (-65536) 0)) := by decide

/-- V-SUB-2: AC minus memory, not memory minus AC. -/
theorem test_sub_direction : shows (step (boot 0x0003 0 2000 [(0, 0x4010), (0x010, 0x0005)])) (fun t => t.ac) =
    some 0xFFFE := by decide
/-- V-SUB-6 under `fault`. -/
theorem test_sub_overflow : shows (step (bootFault 0x0000 [(0, 0x4010), (0x010, 0x8000)])) (fun t => (t.ac, t.run)) =
    some (0x0000, .faulted (.arithmeticOverflow 32768 0)) := by decide

/-- V-IN-4. -/
theorem test_input : shows (step (bootInput 0 [(0, 0x5FFF)] [0x0042])) (fun t => (t.ac, t.inputLatch, t.inputChannel, t.mar)) =
    some (0x0042, 0x0042, [], 0xFFF) := by decide
/-- V-IN-2: nothing pending, no step. -/
theorem test_input_waits : step (bootInput 0 [(0, 0x5000)] []) = .fault .inputWait := by rfl

/-- V-OUT-1. -/
theorem test_output : shows (step (boot 0xFFFE 0 2000 [(0, 0x6000)])) (fun t => (t.outputLatch, t.outputChannel, t.ac)) =
    some (0xFFFE, [0xFFFE], 0xFFFE) := by decide
/-- V-OUT-2. -/
theorem test_output_twice : shows (twice (boot 0x0007 0 2000 [(0, 0x6000), (1, 0x6000)])) (fun t => t.outputChannel) =
    some [0x0007, 0x0007] := by decide

/-- V-HALT-2. -/
theorem test_halt : shows (step (boot 0x0003 0 2000 [(0, 0x7ABC)])) (fun t => (t.run, t.pc, t.ir, t.mar, t.ac, t.sp)) =
    some (.halted, 1, 0x7ABC, 0xABC, 0x0003, 2000) := by decide

/-- SKIPCOND exactness (95_test_vectors.md, Part 1): PC after 8000 and 8400 with AC = -5, 0, 7. -/
theorem test_skipcond :
    [0xFFFB, 0x0000, 0x0007].map (fun ac => shows (step (boot ac 0 2000 [(0, 0x8000)])) (fun t => t.pc)) =
      [some 2, some 1, some 1] ∧
    [0xFFFB, 0x0000, 0x0007].map (fun ac => shows (step (boot ac 0 2000 [(0, 0x8400)])) (fun t => t.pc)) =
      [some 1, some 2, some 1] := by decide
/-- SKIPCOND exactness: PC after 8800 and after the unlisted codes 8C00 and 8401. -/
theorem test_skipcond_unlisted :
    [0xFFFB, 0x0000, 0x0007].map (fun ac => shows (step (boot ac 0 2000 [(0, 0x8800)])) (fun t => t.pc)) =
      [some 1, some 1, some 2] ∧
    [0x8C00, 0x8401].map (fun w => shows (step (boot 0 0 2000 [(0, w)])) (fun t => t.pc)) = [some 1, some 1] := by decide

/-- V-JMP-1. -/
theorem test_jmp : shows (step (boot 1 0 2000 [(0, 0x9123)])) (fun t => (t.pc, t.sp, t.ac)) = some (0x123, 2000, 1) := by
  decide
/-- V-JMP-3, second step: the word at the target is 0x0000. -/
theorem test_jmp_to_zero : shows (twice (boot 1 0 2000 [(0, 0x9FFF)])) (fun t => (t.run, t.pc)) =
    some (.faulted (.unknownOpcode 0 4095), 4096) := by decide

/-- V-CALL-2. -/
theorem test_call : shows (step (boot 9 5 2000 [(5, 0xA123)])) (fun t => (t.mem, t.sp, t.pc, t.ac)) =
    some ([(5, 0xA123), (2000, 0x0006)], 2001, 0x124, 9) := by decide
/-- V-CALL-3, second step: CALL 0xFFF enters at 4096, where the fetch fails. -/
theorem test_call_top : shows (twice (boot 9 0 2000 [(0, 0xAFFF)])) (fun t => (t.run, t.mar, t.pc, t.ir, t.sp)) =
    some (.faulted (.addressOutOfRange 4096 4096), 4096, 4096, 0xAFFF, 2001) := by decide

/-- V-RET-1. -/
theorem test_ret : shows (step (boot 1 0 2001 [(0, 0xC000), (2000, 0x0010)])) (fun t => (t.pc, t.sp, t.mem)) =
    some (16, 2000, [(0, 0xC000), (2000, 0x0010)]) := by decide
/-- V-RET-5. -/
theorem test_ret_empty : shows (step (boot 1 0 0 [(0, 0xC000)])) (fun t => (t.run, t.pc, t.sp)) =
    some (.faulted (.addressOutOfRange (-1) 0), 1, 0) := by decide

/-- V-LDI-1. -/
theorem test_loadi : shows (step (boot 0x1111 0 2000 [(0, 0xB010), (0x010, 0x0020), (0x020, 0xABCD)]))
    (fun t => (t.ac, t.mar)) = some (0xABCD, 0x010) := by decide
/-- V-LDI-4: the pointer is not masked to 12 bits. -/
theorem test_loadi_pointer_out : shows (step (boot 0x1111 0 2000 [(0, 0xB010), (0x010, 0x1000)]))
    (fun t => (t.run, t.ac, t.pc, t.mar)) = some (.faulted (.addressOutOfRange 4096 0), 0x1111, 1, 0x010) := by decide

/-- V-STI-2: the pointer overwrites itself. -/
theorem test_storei : shows (step (boot 0x0030 0 2000 [(0, 0xD010), (0x010, 0x0010)])) (fun t => (t.mem, t.ac)) =
    some ([(0, 0xD010), (0x010, 0x0030)], 0x0030) := by decide
/-- V-STI-3. -/
theorem test_storei_pointer_out : shows (step (boot 0x7777 0 2000 [(0, 0xD010), (0x010, 0x1000)])) (fun t => (t.run, t.mem)) =
    some (.faulted (.addressOutOfRange 4096 0), [(0, 0xD010), (0x010, 0x1000)]) := by decide

/-- V-PUSH-2. -/
theorem test_push : shows (step (boot 0x00AA 0 2000 [(0, 0xE5A5)])) (fun t => (t.mem, t.sp, t.ac, t.mar)) =
    some ([(0, 0xE5A5), (2000, 0x00AA)], 2001, 0x00AA, 0x5A5) := by decide
/-- V-PUSH-4. -/
theorem test_push_full : shows (step (boot 0x00AA 0 4096 [(0, 0xE000)])) (fun t => (t.run, t.sp, t.pc)) =
    some (.faulted (.addressOutOfRange 4096 0), 4096, 1) := by decide

/-- V-POP-1. -/
theorem test_pop : shows (step (boot 1 0 2001 [(0, 0xF030), (2000, 0x00BB)])) (fun t => (t.mem, t.sp, t.ac)) =
    some ([(0, 0xF030), (0x030, 0x00BB), (2000, 0x00BB)], 2000, 1) := by decide
/-- V-POP-4. -/
theorem test_pop_empty : shows (step (boot 1 0 0 [(0, 0xF030)])) (fun t => (t.run, t.sp, t.mem, t.pc)) =
    some (.faulted (.addressOutOfRange (-1) 0), 0, [(0, 0xF030)], 1) := by decide

/-- V-UNK-1. -/
theorem test_unknown_opcode : shows (step (boot 1 0 2000 [(0, 0x0123)])) (fun t => (t.run, t.pc, t.ir, t.mar, t.ac, t.sp)) =
    some (.faulted (.unknownOpcode 0x0000 0), 1, 0x0123, 0x123, 1, 2000) := by decide
/-- V-UNK-2: reset with nothing loaded. -/
theorem test_reset_step : shows (core.step core.reset) (fun t => (t.run, t.pc, t.ir, t.mar)) =
    some (.faulted (.unknownOpcode 0x0000 0), 1, 0, 0) := by decide

/-- V-FETCH-1. -/
theorem test_fetch_past_the_end : shows (twice (boot 1 4095 2000 [(4095, 0x1000)])) (fun t => (t.run, t.mar, t.pc, t.ir)) =
    some (.faulted (.addressOutOfRange 4096 4096), 4096, 4096, 0x1000) := by decide
/-- V-FETCH-2: the skip at the top of memory takes PC to 4097. -/
theorem test_skip_past_the_end : shows (twice (boot 0 4095 2000 [(4095, 0x8400)])) (fun t => (t.run, t.mar)) =
    some (.faulted (.addressOutOfRange 4097 4097), 4097) := by decide

/-- A program of two words starts and its first instruction runs (70_reset_and_hazards.md R202 to R204). -/
theorem test_start : shows (State.reset.start [0x1001, 0x0005]) (fun t => (t.mem, t.pc, t.sp, t.run)) =
    some ([(0, 0x1001), (1, 0x0005)], 0, 2000, .running) := by decide
/-- The word placed by `withFetchWord` is the one the next step runs, and rewriting a cell with zero removes it. -/
theorem test_withFetchWord : shows (step (State.reset.withFetchWord 16 0x7000)) (fun t => (t.run, t.ir)) = some (.halted, 0x7000) ∧
    ((State.reset.withFetchWord 16 0x7000).withFetchWord 16 0).mem = [] := by decide

/-! ## Witnesses: for each statement with hypotheses, states and operands that meet them, each clause at a boundary of its range -/

theorem witness_EncodeOfDecodedWordIsTheWord :
    (decodeWord 0xFFFF = .instr (.pop 0xFFF) ∧ (Instr.pop 0xFFF).usesOperand = true) ∧
    (decodeWord 0x7FFF = .instr .halt ∧ Instr.halt.usesOperand = false) := by decide

/-- A unit that has a step, at the last address, and an INPUT that waits. -/
theorem witness_StepRunsTheDecodedInstruction :
    (let s := boot 1 4095 2000 [(4095, 0x7000)]
     s.run = .running ∧ s.pc.toNat < s.params.memSize ∧ decodeWord (Memory.read s.mem s.pc.toNat) = .instr .halt ∧
       Instr.wellFormed s.params .halt = true ∧ shows (step s) (fun t => t.run) = some .halted) ∧
    (let s := bootInput 0 [(0, 0x5000)] []
     s.run = .running ∧ s.pc.toNat < s.params.memSize ∧ decodeWord (Memory.read s.mem s.pc.toNat) = .instr .input ∧
       Instr.wellFormed s.params .input = true ∧ step s = .fault .inputWait) := by
  refine ⟨by decide, by decide, by decide, by decide, by decide, rfl⟩

theorem witness_FetchOutOfRangeStops :
    let s := boot 1 4096 2000 []
    s.run = .running ∧ s.params.memSize ≤ s.pc.toNat := by decide

theorem witness_UnknownOpcodeStops :
    (let s := boot 1 4095 2000 [(4095, 0x0FFF)]
     s.run = .running ∧ s.pc.toNat < s.params.memSize ∧ 0x0FFF = Memory.read s.mem s.pc.toNat ∧ opcodeField 0x0FFF = 0) ∧
    (let s := { boot 1 0 2000 [(0, 0xE000)] with params := { Params.hardware with enabled := [.load] } }
     s.run = .running ∧ s.pc.toNat < s.params.memSize ∧ 0xE000 = Memory.read s.mem s.pc.toNat ∧
       opcodeField 0xE000 = Opcode.push.code ∧ s.params.enabled.contains .push = false) := by decide

theorem witness_StoppedEngineHasNoStep :
    ({ State.reset with run := .halted } : State).run = .halted ∧
    ({ State.reset with run := .faulted (.unknownOpcode 0 0) } : State).run = .faulted (.unknownOpcode 0 0) := by decide

/-- A waiting engine, and three that answer: nothing pending but no INPUT, a word pending, and INPUT disabled. -/
theorem witness_RunningEngineHasNoStepOnlyToWait :
    (let s := bootInput 4095 [(4095, 0x5FFF)] []
     s.run = .running ∧ step s = .fault .inputWait) ∧
    (State.reset.run = .running ∧ step State.reset ≠ .fault .inputWait) ∧
    (let s := bootInput 0 [(0, 0x5000)] [7]
     s.run = .running ∧ step s ≠ .fault .inputWait) ∧
    (let s := { bootInput 0 [(0, 0x5000)] [] with params := { Params.hardware with enabled := [.load] } }
     s.run = .running ∧ step s ≠ .fault .inputWait) := by
  refine ⟨⟨rfl, rfl⟩, ⟨rfl, ?_⟩, ⟨rfl, ?_⟩, ⟨rfl, ?_⟩⟩ <;> (intro h; cases h)

/-- A failed fetch, and an error of a completed fetch. -/
theorem witness_ErrorsArePrecise :
    (let s := boot 1 4096 2000 []
     s.run = .running ∧ shows (step s) (fun t => t.run) = some (.faulted (.addressOutOfRange 4096 4096))) ∧
    (let s := boot 1 4095 0 [(4095, 0xC000)]
     s.run = .running ∧ shows (step s) (fun t => t.run) = some (.faulted (.addressOutOfRange (-1) 4095))) := by decide

/-- Each of the four records. -/
theorem witness_ErrorsAreTheListedOnes :
    (let s := boot 1 4096 2000 []
     s.run = .running ∧ shows (step s) (fun t => t.run) = some (.faulted (.addressOutOfRange 4096 4096))) ∧
    (let s := boot 1 4095 2000 []
     s.run = .running ∧ shows (step s) (fun t => t.run) = some (.faulted (.unknownOpcode 0 4095))) ∧
    (let s := boot 1 0 4096 [(0, 0xE000)]
     s.run = .running ∧ shows (step s) (fun t => t.run) = some (.faulted (.addressOutOfRange 4096 0))) ∧
    (let s := bootFault 0x7FFF [(0, 0x3001), (1, 1)]
     s.run = .running ∧ shows (step s) (fun t => t.run) = some (.faulted (.arithmeticOverflow 32768 0))) := by decide

/-- Each of the listed cases. -/
theorem witness_RangeCheckFailsOnlyInListedCases :
    (let s := boot 1 4096 4096 []
     s.run = .running ∧ s.params.memSize = 4096 ∧ s.sp.toNat ≤ 4096 ∧
       shows (step s) (fun t => t.run) = some (.faulted (.addressOutOfRange 4096 4096))) ∧
    (let s := boot 1 0 4096 [(0, 0xA000)]
     s.run = .running ∧ s.params.memSize = 4096 ∧ s.sp.toNat ≤ 4096 ∧
       shows (step s) (fun t => t.run) = some (.faulted (.addressOutOfRange 4096 0))) ∧
    (let s := boot 1 0 0 [(0, 0xF000)]
     s.run = .running ∧ s.params.memSize = 4096 ∧ s.sp.toNat ≤ 4096 ∧
       shows (step s) (fun t => t.run) = some (.faulted (.addressOutOfRange (-1) 0))) ∧
    (let s := boot 1 0 0 [(0, 0xDFFF), (4095, 0x1000)]
     s.run = .running ∧ s.params.memSize = 4096 ∧ s.sp.toNat ≤ 4096 ∧
       shows (step s) (fun t => t.run) = some (.faulted (.addressOutOfRange 4096 0))) := by decide

/-- A push that fills the stack to the top, and a failed fetch. -/
theorem witness_StepKeepsTheInvariant :
    (let s := boot 1 0 4095 [(0, 0xE000)]
     s.Inv ∧ shows (step s) (fun t => t.sp) = some 4096) ∧
    (let s := boot 1 4096 4096 []
     s.Inv ∧ shows (step s) (fun t => t.sp) = some 4096) := by decide

theorem witness_StartedEngineMeetsTheInvariant :
    State.reset.params.wf = true ∧ shows (State.reset.start [0x7000]) (fun t => t.mem) = some [(0, 0x7000)] := by decide

/-- A unit that keeps MAR, at the last address, and one that does not. -/
theorem witness_IrAndMarAtTheBoundary :
    (let s := boot 1 4095 2000 [(4095, 0x1FFF)]
     s.run = .running ∧ s.pc.toNat < s.params.memSize ∧
       decodeWord (Memory.read s.mem s.pc.toNat) = .instr (.load 0xFFF) ∧ (Instr.load 0xFFF).wellFormed s.params = true ∧
       shows (step s) (fun t => t.mar) = some 0xFFF) ∧
    (let s := boot 1 0 2000 [(0, 0x9FFF)]
     s.run = .running ∧ s.pc.toNat < s.params.memSize ∧
       decodeWord (Memory.read s.mem s.pc.toNat) = .instr (.jmp 0xFFF) ∧ (Instr.jmp 0xFFF).wellFormed s.params = true ∧
       shows (step s) (fun t => t.ir) = some 0x9FFF) := by decide

theorem witness_OnlyFiveInstructionsWriteAc :
    shows (exec (.pop 0xFFF) (boot 1 0 1 [])) (fun t => t.ac) = some 1 ∧
    (∀ x, Instr.pop 0xFFF ≠ .load x) ∧ (∀ x, Instr.pop 0xFFF ≠ .loadi x) ∧ (∀ x, Instr.pop 0xFFF ≠ .add x) ∧
    (∀ x, Instr.pop 0xFFF ≠ .sub x) ∧ Instr.pop 0xFFF ≠ .input := by simp [shows]; decide

/-- An instruction that answers for each clause, storing at the last address. -/
theorem witness_OnlyFiveInstructionsWriteMemory :
    (shows (exec .ret (boot 7 0 1 [])) (fun t => t.mem) = some [] ∧ (∀ x, Instr.ret ≠ .store x) ∧ (∀ x, Instr.ret ≠ .storei x) ∧
      Instr.ret ≠ .push ∧ (∀ x, Instr.ret ≠ .pop x) ∧ (∀ x, Instr.ret ≠ .call x)) ∧
    shows (exec (.store 0xFFF) (boot 7 0 0 [])) (fun t => t.mem) = some [(4095, 7)] ∧
    shows (exec (.storei 0x000) (boot 7 0 0 [(0, 4095)])) (fun t => t.mem) = some [(0, 4095), (4095, 7)] ∧
    shows (exec .push (boot 7 0 4095 [])) (fun t => t.mem) = some [(4095, 7)] ∧
    shows (exec (.call 0xFFF) (boot 7 9 4095 [])) (fun t => t.mem) = some [(4095, 9)] ∧
    shows (exec (.pop 0xFFF) (boot 7 0 1 [(0, 5)])) (fun t => t.mem) = some [(0, 5), (4095, 5)] := by
  refine ⟨⟨by decide, by simp⟩, ?_⟩
  decide

/-- A step that appends, one that consumes and one that does neither. -/
theorem witness_ChannelsMoveOnlyByInputAndOutput :
    (let s := boot 7 4095 2000 [(4095, 0x6000)]
     s.run = .running ∧ shows (step s) (fun t => t.outputChannel) = some [7]) ∧
    (let s := bootInput 4095 [(4095, 0x5000)] [3, 4]
     s.run = .running ∧ shows (step s) (fun t => t.inputChannel) = some [4]) ∧
    (let s := boot 7 0 2000 [(0, 0x1000)]
     s.run = .running ∧ shows (step s) (fun t => (t.inputChannel, t.outputChannel)) = some ([], [])) := by decide

theorem witness_ExecutePhaseKeepsIrAndParameters :
    shows (exec (.call 0xFFF) (boot 1 0 4095 [])) (fun t => t.ir) = some 0 := by decide

/-- A push, a pop and an instruction that leaves SP, at the ends of the stack. -/
theorem witness_SpCountsPushesAndPops :
    (let s := boot 1 1 4095 []
     s.Inv ∧ s.safe = true ∧ shows (exec .push s) (fun t => (t.safe, t.sp)) = some (true, 4096)) ∧
    (let s := boot 1 1 1 []
     s.Inv ∧ s.safe = true ∧ shows (exec .ret s) (fun t => (t.safe, t.sp)) = some (true, 0)) ∧
    (let s := boot 1 1 0 []
     s.Inv ∧ s.safe = true ∧ shows (exec .halt s) (fun t => (t.safe, t.sp)) = some (true, 0)) := by decide

/-- Two different states, Running and Halted. -/
theorem witness_ScratchRegistersAreNeverRead :
    (let s := boot 1 0 2000 [(0, 0x1000)]
     SameButScratch s { s with mar := 5, mbr := 6, ir := 7, draws := 8 } ∧ s ≠ { s with mar := 5, mbr := 6, ir := 7, draws := 8 } ∧
       shows (step s) (fun t => t.ac) = some 0x1000) ∧
    (let s := { State.reset with run := .halted }
     SameButScratch s { s with ir := 7 } ∧ step s = .fault .engineHalted) := by
  refine ⟨⟨⟨rfl, rfl, rfl, rfl, rfl, rfl, rfl, rfl, rfl, rfl⟩, by decide, by decide⟩,
    ⟨rfl, rfl, rfl, rfl, rfl, rfl, rfl, rfl, rfl, rfl⟩, rfl⟩

/-- At the last address: a skip taken, a skip not taken, and an instruction that is no SKIPCOND. -/
theorem witness_PcAdvancesByOneWithoutWrap :
    (let s := boot 0 4095 2000 [(4095, 0x8400)]
     s.params.wf = true ∧ s.run = .running ∧ s.pc.toNat < s.params.memSize ∧
       decodeWord (Memory.read s.mem s.pc.toNat) = .instr (.skipcond 0x400) ∧
       (Instr.skipcond 0x400).wellFormed s.params = true ∧ skips 0x400 s.ac = true ∧
       shows (step s) (fun t => (t.safe, t.pc)) = some (true, 4097)) ∧
    (let s := boot 1 4095 2000 [(4095, 0x8400)]
     s.params.wf = true ∧ s.run = .running ∧ s.pc.toNat < s.params.memSize ∧
       decodeWord (Memory.read s.mem s.pc.toNat) = .instr (.skipcond 0x400) ∧
       (Instr.skipcond 0x400).wellFormed s.params = true ∧ skips 0x400 s.ac = false ∧
       shows (step s) (fun t => (t.safe, t.pc)) = some (true, 4096)) ∧
    (let s := boot 1 4095 2000 [(4095, 0x1000)]
     s.params.wf = true ∧ s.run = .running ∧ s.pc.toNat < s.params.memSize ∧
       decodeWord (Memory.read s.mem s.pc.toNat) = .instr (.load 0) ∧ (Instr.load 0).wellFormed s.params = true ∧
       shows (step s) (fun t => (t.safe, t.pc)) = some (true, 4096)) ∧
    ((∀ x, Instr.skipcond 0x400 ≠ .jmp x) ∧ (∀ x, Instr.skipcond 0x400 ≠ .call x) ∧ Instr.skipcond 0x400 ≠ .ret) := by
  refine ⟨by decide, by decide, by decide, by simp⟩

/-- A step that halts and one that does not. -/
theorem witness_OnlyHaltHalts :
    (let s := boot 1 4095 2000 [(4095, 0x7FFF)]
     s.run = .running ∧ shows (step s) (fun t => t.run) = some .halted) ∧
    (let s := boot 1 4095 2000 [(4095, 0x1000)]
     s.run = .running ∧ shows (step s) (fun t => t.run) = some .running) := by decide

/-- Two addresses, and the first and last word of a loaded buffer. -/
theorem witness_ReadGivesTheWordLastWritten :
    (0 : Nat) ≠ 4095 ∧ 0 < [(5 : Word), 6].length ∧ 1 < [(5 : Word), 6].length ∧
    Memory.read (Memory.writeAll [] 4094 [5, 6]) 4095 = 6 := by decide

/-- Both ends on both sides, for an access and for fetch. -/
theorem witness_EveryAccessIsRangeChecked :
    ((-1 : Int) < 0 ∧ (State.reset.params.memSize : Int) ≤ 4096) ∧
    ((0 : Int) ≤ 0 ∧ (0 : Int) < (State.reset.params.memSize : Int)) ∧
    ((0 : Int) ≤ 4095 ∧ (4095 : Int) < (State.reset.params.memSize : Int)) ∧
    (boot 1 4096 2000 []).run = .running ∧ (boot 1 4096 2000 []).params.memSize ≤ (boot 1 4096 2000 []).pc.toNat := by decide

/-- A STORE at 4094 of the word of HALT to the last address. -/
theorem witness_StoreIsSeenByTheNextFetch :
    let s := boot 0x7000 4094 2000 [(4094, 0x2FFF)]
    s.params.wf = true ∧ s.run = .running ∧ (0xFFF#12).toNat = s.pc.toNat + 1 ∧ (0xFFF#12).toNat < s.params.memSize ∧
      Memory.read s.mem s.pc.toNat = encode (.store 0xFFF) ∧ s.params.enabled.contains .store = true ∧
      decodeWord s.ac = .instr .halt ∧ Instr.halt.wellFormed s.params = true ∧
      shows (twice s) (fun t => t.run) = some .halted := by decide

/-- The last address, inside and outside the memory. -/
theorem witness_LoadCopiesMemoryToAc :
    ((0xFFF#12).toNat < (boot 1 1 0 []).params.memSize ∧
      shows (exec (.load 0xFFF) (boot 1 1 0 [(4095, 0x8000)])) (fun t => t.ac) = some 0x8000) ∧
    ((bootSmall 1 1 0 []).params.memSize ≤ (0xFFF#12).toNat ∧
      shows (exec (.load 0xFFF) (bootSmall 1 1 0 [])) (fun t => t.run) = some (.faulted (.addressOutOfRange 4095 0))) := by decide

theorem witness_StoreCopiesAcToMemory :
    ((0xFFF#12).toNat < (boot 1 1 0 []).params.memSize ∧
      shows (exec (.store 0xFFF) (boot 1 1 0 [(4095, 0x8000)])) (fun t => t.mem) = some [(4095, 1)]) ∧
    ((bootSmall 1 1 0 []).params.memSize ≤ (0xFFF#12).toNat ∧
      shows (exec (.store 0xFFF) (bootSmall 1 1 0 [])) (fun t => t.run) = some (.faulted (.addressOutOfRange 4095 0))) := by decide

/-- The largest sum that fits, the first that does not under each policy, and an operand outside the memory. -/
theorem witness_AddPutsTheSumInAc :
    ((0xFFF#12).toNat < (bootFault 0x7FFE [(4095, 1)]).params.memSize ∧
      (bootFault 0x7FFE [(4095, 1)]).ac.toInt + (Memory.read [(4095, 1)] 4095).toInt = 32767 ∧
      shows (exec (.add 0xFFF) (bootFault 0x7FFE [(4095, 1)])) (fun t => t.ac) = some 0x7FFF) ∧
    ((boot 0x7FFF 1 0 [(4095, 1)]).params.acOverflow = .wrap16 ∧
      shows (exec (.add 0xFFF) (boot 0x7FFF 1 0 [(4095, 1)])) (fun t => t.ac) = some 0x8000) ∧
    ((bootFault 0x8000 [(4095, 0xFFFF)]).params.acOverflow = .fault ∧
      (bootFault 0x8000 [(4095, 0xFFFF)]).ac.toInt + (Memory.read [(4095, 0xFFFF)] 4095).toInt < -32768 ∧
      shows (exec (.add 0xFFF) (bootFault 0x8000 [(4095, 0xFFFF)])) (fun t => t.ac) = some 0x8000) ∧
    (bootSmall 1 1 0 []).params.memSize ≤ (0xFFF#12).toNat := by decide

/-- The smallest difference that fits, the first that does not under each policy, and an operand outside the memory. -/
theorem witness_SubPutsTheDifferenceInAc :
    ((0xFFF#12).toNat < (bootFault 0x8001 [(4095, 1)]).params.memSize ∧
      (bootFault 0x8001 [(4095, 1)]).ac.toInt - (Memory.read [(4095, 1)] 4095).toInt = -32768 ∧
      shows (exec (.sub 0xFFF) (bootFault 0x8001 [(4095, 1)])) (fun t => t.ac) = some 0x8000) ∧
    ((boot 0x8000 1 0 [(4095, 1)]).params.acOverflow = .wrap16 ∧
      shows (exec (.sub 0xFFF) (boot 0x8000 1 0 [(4095, 1)])) (fun t => t.ac) = some 0x7FFF) ∧
    ((bootFault 0x7FFF [(4095, 0xFFFF)]).params.acOverflow = .fault ∧
      32767 < (bootFault 0x7FFF [(4095, 0xFFFF)]).ac.toInt - (Memory.read [(4095, 0xFFFF)] 4095).toInt ∧
      shows (exec (.sub 0xFFF) (bootFault 0x7FFF [(4095, 0xFFFF)])) (fun t => t.ac) = some 0x7FFF) ∧
    (bootSmall 1 1 0 []).params.memSize ≤ (0xFFF#12).toNat := by decide

theorem witness_InputTakesTheFirstPendingWord :
    (bootInput 1 [] [0x8001]).inputChannel = [0x8001] ∧
    shows (exec .input (bootInput 1 [] [0x8001])) (fun t => (t.ac, t.inputChannel)) = some (0x8001, []) := by decide

theorem witness_InputWaitsForAWord :
    let s := bootInput 4095 [(4095, 0x5FFF)] []
    s.run = .running ∧ s.pc.toNat < s.params.memSize ∧ opcodeField (Memory.read s.mem s.pc.toNat) = 0x5#4 ∧
      s.params.enabled.contains .input = true ∧ s.inputChannel = [] ∧
      shows (step (s.supplyInput 9)) (fun t => (t.ac, t.pc)) = some (9, 4096) := by decide

theorem witness_OutputEmitsAc : shows (exec .output (boot 7 1 0 [])) (fun t => t.outputChannel) = some [7] := by decide

theorem witness_HaltStopsExecution : shows (exec .halt (boot 7 1 0 [])) (fun t => (t.run, t.pc)) = some (.halted, 1) := by decide

/-- The three conditions at the ends of the signed range, a code that is none of them, and a skip past the end of memory. -/
theorem witness_SkipcondSkipsOnItsCondition :
    shows (exec (.skipcond 0x000) (boot 0x8000 1 0 [])) (fun t => t.pc) = some 2 ∧
    shows (exec (.skipcond 0x400) (boot 0x0000 1 0 [])) (fun t => t.pc) = some 2 ∧
    shows (exec (.skipcond 0x800) (boot 0x7FFF 1 0 [])) (fun t => t.pc) = some 2 ∧
    shows (exec (.skipcond 0xC00) (boot 0x0000 1 0 [])) (fun t => t.pc) = some 1 ∧
    shows (exec (.skipcond 0x400) (boot 0 4096 0 [])) (fun t => (t.pc, decide (t.params.memSize ≤ t.pc.toNat))) =
      some (4097, true) := by decide

/-- A target inside and one outside the memory. -/
theorem witness_JmpSetsPcToTheOperand :
    shows (exec (.jmp 0xFFF) (boot 1 1 0 [])) (fun t => decide (t.params.memSize ≤ t.pc.toNat)) = some false ∧
    shows (exec (.jmp 0xFFF) (bootSmall 1 1 0 [])) (fun t => decide (t.params.memSize ≤ t.pc.toNat)) = some true := by decide

/-- Room for one word, no room, and a target outside the memory. -/
theorem witness_CallPushesPcAndEntersAfterTheOperand :
    ((boot 1 1 4095 []).sp.toNat < (boot 1 1 4095 []).params.memSize ∧
      shows (exec (.call 0xFFF) (boot 1 1 4095 [])) (fun t => (t.pc, decide (t.params.memSize ≤ t.pc.toNat))) =
        some (4096, true)) ∧
    (boot 1 1 4096 []).params.memSize ≤ (boot 1 1 4096 []).sp.toNat := by decide

/-- Both ends of the stack, the empty stack, and a return address outside the memory. -/
theorem witness_RetPopsPc :
    (0 < (boot 1 1 1 []).sp.toNat ∧ (boot 1 1 1 []).sp.toNat ≤ (boot 1 1 1 []).params.memSize) ∧
    ((boot 1 1 4096 []).sp.toNat ≤ (boot 1 1 4096 []).params.memSize ∧
      shows (exec .ret (boot 1 1 4096 [(4095, 0xFFFF)])) (fun t => (t.pc, decide (t.params.memSize ≤ t.pc.toNat))) =
        some (0xFFFF, true)) ∧
    (boot 1 1 0 []).sp.toNat = 0 := by decide

/-- The last pointer inside, the first outside, and an operand outside the memory. -/
theorem witness_LoadiLoadsThroughThePointer :
    ((0xFFF#12).toNat < (boot 1 1 0 []).params.memSize ∧ (Memory.read [(4095, 0x0FFF)] 4095).toNat < (boot 1 1 0 []).params.memSize ∧
      shows (exec (.loadi 0xFFF) (boot 1 1 0 [(4095, 0x0FFF)])) (fun t => t.ac) = some 0x0FFF) ∧
    ((boot 1 1 0 []).params.memSize ≤ (Memory.read [(4095, 0x1000)] 4095).toNat ∧
      shows (exec (.loadi 0xFFF) (boot 1 1 0 [(4095, 0x1000)])) (fun t => t.run) =
        some (.faulted (.addressOutOfRange 4096 0))) ∧
    (bootSmall 1 1 0 []).params.memSize ≤ (0xFFF#12).toNat := by decide

theorem witness_StoreiStoresThroughThePointer :
    ((0x000#12).toNat < (boot 7 1 0 []).params.memSize ∧ (Memory.read [(0, 0x0FFF)] 0).toNat < (boot 7 1 0 []).params.memSize ∧
      shows (exec (.storei 0) (boot 7 1 0 [(0, 0x0FFF)])) (fun t => t.mem) = some [(0, 0x0FFF), (4095, 7)]) ∧
    ((boot 7 1 0 []).params.memSize ≤ (Memory.read [(0, 0x1000)] 0).toNat ∧
      shows (exec (.storei 0) (boot 7 1 0 [(0, 0x1000)])) (fun t => t.run) = some (.faulted (.addressOutOfRange 4096 0))) ∧
    (bootSmall 1 1 0 []).params.memSize ≤ (0xFFF#12).toNat := by decide

theorem witness_PushStoresAcAndRaisesSp :
    ((boot 7 1 4095 []).sp.toNat < (boot 7 1 4095 []).params.memSize ∧
      shows (exec .push (boot 7 1 4095 [])) (fun t => (t.mem, t.sp)) = some ([(4095, 7)], 4096)) ∧
    (boot 7 1 4096 []).params.memSize ≤ (boot 7 1 4096 []).sp.toNat := by decide

/-- Both ends of the stack, the empty stack, and an operand outside the memory. -/
theorem witness_PopStoresTheTopOfTheStack :
    (0 < (boot 7 1 1 []).sp.toNat ∧ (0xFFF#12).toNat < (boot 7 1 1 []).params.memSize) ∧
    ((boot 7 1 4096 []).sp.toNat ≤ (boot 7 1 4096 []).params.memSize ∧
      shows (exec (.pop 0) (boot 7 1 4096 [(4095, 5)])) (fun t => (t.mem, t.sp)) = some ([(0, 5), (4095, 5)], 4095)) ∧
    (boot 7 1 0 []).sp.toNat = 0 ∧
    (0 < (bootSmall 7 1 1 []).sp.toNat ∧ (bootSmall 7 1 1 []).sp.toNat ≤ (bootSmall 7 1 1 []).params.memSize ∧
      (bootSmall 7 1 1 []).params.memSize ≤ (0xFFF#12).toNat ∧
      shows (exec (.pop 0xFFF) (bootSmall 7 1 1 [])) (fun t => t.run) = some (.faulted (.addressOutOfRange 4095 0))) := by decide

theorem witness_PopAfterPushRestoresSpAndAc :
    let s := boot 7 1 4095 []
    s.Inv ∧ s.sp.toNat < s.params.memSize ∧ (0xFFF#12).toNat < s.params.memSize := by decide

theorem witness_StackIsLastInFirstOut :
    let s := boot 7 1 4094 []
    s.Inv ∧ s.sp.toNat + 1 < s.params.memSize ∧ (0x000#12).toNat < s.params.memSize ∧ (0xFFF#12).toNat < s.params.memSize ∧
      (0x000#12).toNat ≠ s.sp.toNat ∧ (0x000#12) ≠ 0xFFF#12 := by decide

/-- The state after the CALL is itself a state RET returns from. -/
theorem witness_RetReturnsToTheInstructionAfterCall :
    let s := boot 7 1 4095 []
    let t := (((s.writeMem 4095 1).setSp 4096).setPc 0x1000).scratchMarMbr
    s.Inv ∧ s.sp.toNat < s.params.memSize ∧ exec (.call 0xFFF) s = .next t ∧
      shows (exec .ret t) (fun v => (v.pc, v.sp)) = some (1, 4095) := by
  refine ⟨by decide, by decide, rfl, by decide⟩

theorem witness_InitialiseZeroesTheMemory :
    let s := boot 7 1 4095 [(9, 9)]
    s.params.wf = true ∧ s.initialise.mem = [] ∧ s.initialise.sp = 2000 := by decide

/-- A buffer that fits exactly, and one word too many, in a memory of two words. -/
theorem witness_LoadCopiesTheBuffer :
    let p : Params := { Params.hardware with memSize := 2, stackBase := 2 }
    let s := { State.reset with params := p }
    s.params.wf = true ∧ s.params.startAddress + [(1 : Word), 2].length ≤ s.params.memSize ∧
      s.params.memSize < s.params.startAddress + [(1 : Word), 2, 3].length ∧
      shows (s.start [1, 2]) (fun t => t.mem) = some [(0, 1), (1, 2)] ∧ s.start [1, 2, 3] = .refused .programDoesNotFit := by
  refine ⟨by decide, by decide, by decide, by decide, rfl⟩

/-- A canonical array, the removal of an entry by writing zero, and two ways to the same array. -/
theorem witness_WritesKeepTheCanonicalMemory :
    Memory.wf [(0, 1), (4095, 2)] = true ∧ Memory.write [(0, 1), (4095, 2)] 0 0 = [(4095, 2)] ∧
    Memory.write (Memory.write [] 0 1) 4095 2 = Memory.write (Memory.write [] 4095 2) 0 1 := by decide

end Sys2Proof.Tests
end

/-! The boundary invariant of 10_state.md R29: fetch and decode set IR and MAR, and the execute phase keeps them. -/

namespace Sys2Proof.Machine

/-- An execute phase that answers a next state, an error stop included, keeps IR, and MAR except in a control transfer
(10_state.md R24, R26). -/
theorem exec_keeps_ir_and_mar {i : Instr} {s t : State} (h : exec i s = .next t) :
    t.ir = s.ir ∧ ((∀ x, i ≠ .jmp x) → (∀ x, i ≠ .call x) → i ≠ .ret → t.mar = s.mar) := by
  rcases exec_next h with he | ⟨e, -, rfl⟩
  · obtain ⟨hir, -, hmar⟩ := effect_frame he
    exact ⟨hir, hmar⟩
  · exact ⟨State.stopped_ir s e, fun _ _ _ => State.stopped_mar s e⟩

/-- Fetch and decode leave the operand field of IR in MAR (40_fetch_decode_execute.md R102). -/
theorem State.fetched_mar_eq_masked_ir (s : State) (w : Word) : (s.fetched w).mar = (s.fetched w).ir &&& 0x0FFF#16 :=
  operandField_setWidth w

/-- Settles O16: the step is the execute phase after fetch and decode, which set both registers as stated and which the phase keeps. -/
theorem irAndMarAtTheBoundary : Obligations.IrAndMarAtTheBoundary := by
  intro s t i hrun hpc hdecode hwf hstep
  have hexec : exec i (s.fetched (Memory.read s.mem s.pc.toNat)) = .next t :=
    (step_runs hrun ⟨hpc, hdecode, hwf⟩).symm.trans hstep
  obtain ⟨hir, hmar⟩ := exec_keeps_ir_and_mar hexec
  constructor
  · rw [hir, State.fetched_ir]
    exact opcodeField_of_decodeWord hdecode
  · intro hjmp hcall hret
    rw [hmar hjmp hcall hret, hir]
    exact State.fetched_mar_eq_masked_ir s _

end Sys2Proof.Machine

/-! The memory array as a map from addresses to words (20_memory.md R51). -/

namespace Sys2Proof.Machine

/-- A word of the buffer is read back at its own place after the load (70_reset_and_hazards.md R202). -/
theorem Memory.read_writeAll_add (m : Memory) (a : Nat) (ws : List Word) (n : Nat) (h : n < ws.length) :
    Memory.read (Memory.writeAll m a ws) (a + n) = ws[n] := by
  simp [Memory.read_writeAll, h]

/-- Writing back the word already at an address leaves every read as it was. -/
theorem Memory.read_write_read_same (m : Memory) (a b : Nat) :
    Memory.read (Memory.write m a (Memory.read m a)) b = Memory.read m b := by
  by_cases hba : b = a
  · rw [hba, Memory.read_write_same]
  · exact Memory.read_write_other m _ hba

/-- Settles O25: the read-after-write rules of the array, for one write and for the loader's writes. -/
theorem readGivesTheWordLastWritten : Obligations.ReadGivesTheWordLastWritten := by
  intro m a v
  exact ⟨Memory.read_nil a, Memory.read_write_same m a v, fun b hb => Memory.read_write_other m v hb,
    Memory.read_writeAll_add m a, Memory.read_write_read_same m a⟩

end Sys2Proof.Machine

/-! The opcode map of 30_encoding.md R72: the opcode field alone selects the row, the operand field only fills it. -/

namespace Sys2Proof

/-- No instruction has the opcode 0x0 (30_encoding.md R75). -/
theorem Opcode.code_ne_zero (o : Opcode) : o.code ≠ 0 := by
  cases o <;> decide

/-- A word decodes to every instruction whose opcode it has, provided the operand agrees where that instruction uses one
(30_encoding.md R72 to R74). -/
theorem decodeWord_of_fields {w : Word} (i : Instr) (hcode : opcodeField w = i.opcode.code)
    (hoperand : i.usesOperand = true → operandField w = i.operand) : decodeWord w = .instr i := by
  unfold decodeWord
  rw [hcode]
  cases i with
  | input | output | halt | ret | push => rfl
  | load x | store x | add x | sub x | skipcond x | jmp x | call x | loadi x | storei x | pop x =>
    rw [hoperand rfl]
    rfl

/-- The same for a word written as the pattern of a row of R72, the opcode value `c` in its place, with an operand in its low bits. -/
theorem decodeWord_of_pattern (c : OpcodeField) (x : Operand) (i : Instr) {p : Word} (hp : c.setWidth 16 <<< 12 = p)
    (hc : c = i.opcode.code) (hx : i.usesOperand = true → x = i.operand) : decodeWord (p ||| x.setWidth 16) = .instr i := by
  obtain ⟨hcode, hoperand⟩ := fields_of_pattern x hp
  exact decodeWord_of_fields i (hcode.trans hc) fun hu => hoperand.trans (hx hu)

/-- Opcode 0x0 is not in the table, and the record reports it in place (30_encoding.md R75). -/
theorem decodeWord_of_opcodeField_zero {w : Word} (h : opcodeField w = 0) : decodeWord w = .unknownOpcode 0x0000#16 := by
  have hplace : opcodeInPlace w = 0x0000#16 := by
    rw [← opcodeField_inPlace, h]
    rfl
  unfold decodeWord
  rw [h, hplace]
  rfl

/-- Every value of the opcode field but 0x0 is in the table (30_encoding.md R75). -/
theorem Opcode.exists_code_eq : ∀ c : OpcodeField, c ≠ 0 → ∃ o ∈ Opcode.all, o.code = c := by
  decide

/-- Decode is total: opcode 0x0 apart, a word decodes to an instruction (30_encoding.md R79). -/
theorem decodeWord_of_opcodeField_ne_zero {w : Word} (h : opcodeField w ≠ 0) : ∃ i, decodeWord w = .instr i := by
  obtain ⟨o, -, ho⟩ := Opcode.exists_code_eq _ h
  unfold decodeWord
  rw [← ho]
  cases o <;> exact ⟨_, rfl⟩

theorem decodeWord_instr_iff (w : Word) : (∃ i, decodeWord w = .instr i) ↔ opcodeField w ≠ 0 := by
  constructor
  · rintro ⟨i, hi⟩
    rw [opcodeField_of_decodeWord hi]
    exact i.opcode.code_ne_zero
  · exact decodeWord_of_opcodeField_ne_zero

/-- Settles O3: each row of R72 by the pattern of its opcode, and the words outside the table by their opcode 0x0. -/
theorem opcodeAloneSelectsTheInstruction : Obligations.OpcodeAloneSelectsTheInstruction := by
  refine ⟨fun x => ?_, decodeWord_instr_iff⟩
  have hzero : opcodeField (0x0000#16 ||| x.setWidth 16) = 0 := (fields_of_pattern (c := 0) x rfl).1
  exact ⟨decodeWord_of_opcodeField_zero hzero,
    decodeWord_of_pattern 0x1 x (.load x) rfl rfl fun _ => rfl,
    decodeWord_of_pattern 0x2 x (.store x) rfl rfl fun _ => rfl,
    decodeWord_of_pattern 0x3 x (.add x) rfl rfl fun _ => rfl,
    decodeWord_of_pattern 0x4 x (.sub x) rfl rfl fun _ => rfl,
    decodeWord_of_pattern 0x5 x .input rfl rfl nofun,
    decodeWord_of_pattern 0x6 x .output rfl rfl nofun,
    decodeWord_of_pattern 0x7 x .halt rfl rfl nofun,
    decodeWord_of_pattern 0x8 x (.skipcond x) rfl rfl fun _ => rfl,
    decodeWord_of_pattern 0x9 x (.jmp x) rfl rfl fun _ => rfl,
    decodeWord_of_pattern 0xA x (.call x) rfl rfl fun _ => rfl,
    decodeWord_of_pattern 0xB x (.loadi x) rfl rfl fun _ => rfl,
    decodeWord_of_pattern 0xC x .ret rfl rfl nofun,
    decodeWord_of_pattern 0xD x (.storei x) rfl rfl fun _ => rfl,
    decodeWord_of_pattern 0xE x .push rfl rfl nofun,
    decodeWord_of_pattern 0xF x (.pop x) rfl rfl fun _ => rfl⟩

end Sys2Proof

/-! LOAD and STORE (41_load_store_arith.md R121, R122): one access at the operand address, in range or stopped. -/

namespace Sys2Proof.Machine

/-- An execute phase that raises AddressOutOfRange is a stop on that address with everything else kept (20_memory.md R53). -/
theorem stopsOnAddress_of_exec_eq_raise {i : Instr} {s : State} {a : Int}
    (h : exec i s = raise (.addressOutOfRange a s.instrPc) s) : StopsOnAddress i s a :=
  ⟨s.stopped (.addressOutOfRange a s.instrPc), s.instrPc, h, rfl, rfl, rfl, rfl, fun _ => rfl, rfl, rfl, rfl, rfl⟩

theorem inRange_directAddress_eq_false {s : State} {x : Operand} (h : s.params.memSize ≤ x.toNat) :
    s.inRange (directAddress x) = false := by
  rw [← Bool.not_eq_true, inRange_directAddress]
  exact h.not_gt

theorem exec_load_inRange {x : Operand} {s : State} (h : x.toNat < s.params.memSize) :
    exec (.load x) s = .next (s.setAc (Memory.read s.mem x.toNat)).scratchMbr :=
  onRead_inRange (fun w => complete (s.setAc w)) ((inRange_directAddress s x).2 h)

theorem exec_load_outOfRange {x : Operand} {s : State} (h : s.params.memSize ≤ x.toNat) :
    exec (.load x) s = raise (.addressOutOfRange (directAddress x) s.instrPc) s :=
  onRead_outOfRange (fun w => complete (s.setAc w)) (inRange_directAddress_eq_false h)

theorem exec_store_inRange {x : Operand} {s : State} (h : x.toNat < s.params.memSize) :
    exec (.store x) s = .next (s.writeMem x.toNat s.ac).scratchMbr :=
  onWrite_inRange s.ac complete ((inRange_directAddress s x).2 h)

theorem exec_store_outOfRange {x : Operand} {s : State} (h : s.params.memSize ≤ x.toNat) :
    exec (.store x) s = raise (.addressOutOfRange (directAddress x) s.instrPc) s :=
  onWrite_outOfRange s.ac complete (inRange_directAddress_eq_false h)

/-- A write to one place keeps every other word, whatever else completing does to the registers (20_memory.md R51). -/
theorem keepsMemoryBut_writeMem (s : State) (a : Nat) (v : Word) : KeepsMemoryBut a s (s.writeMem a v).scratchMbr :=
  fun _ hb => Memory.read_write_other s.mem v hb

/-- Settles O28: the row of R72, the load in range, which sets AC alone, and the stop out of range. -/
theorem loadCopiesMemoryToAc : Obligations.LoadCopiesMemoryToAc := by
  intro x s
  refine ⟨decodeWord_of_pattern 0x1 x (.load x) rfl rfl fun _ => rfl, fun hx => ?_, fun hx => ?_⟩
  · have hcontrol : KeepsControl s (s.setAc (Memory.read s.mem x.toNat)).scratchMbr := ⟨rfl, rfl, rfl, rfl⟩
    have hchannels : KeepsChannels s (s.setAc (Memory.read s.mem x.toNat)).scratchMbr := ⟨rfl, rfl, rfl, rfl⟩
    exact ⟨_, exec_load_inRange hx, rfl, rfl, rfl, hcontrol, fun _ => rfl, hchannels⟩
  · exact stopsOnAddress_of_exec_eq_raise (exec_load_outOfRange hx)

/-- Settles O29: the row of R72, the store in range by the array's read-after-write laws, and the stop out of range. -/
theorem storeCopiesAcToMemory : Obligations.StoreCopiesAcToMemory := by
  intro x s
  refine ⟨decodeWord_of_pattern 0x2 x (.store x) rfl rfl fun _ => rfl, fun hx => ?_, fun hx => ?_⟩
  · have hcontrol : KeepsControl s (s.writeMem x.toNat s.ac).scratchMbr := ⟨rfl, rfl, rfl, rfl⟩
    have hchannels : KeepsChannels s (s.writeMem x.toNat s.ac).scratchMbr := ⟨rfl, rfl, rfl, rfl⟩
    exact ⟨_, exec_store_inRange hx, Memory.read_write_same s.mem x.toNat s.ac, keepsMemoryBut_writeMem s x.toNat s.ac,
      rfl, rfl, rfl, hcontrol, hchannels⟩
  · exact stopsOnAddress_of_exec_eq_raise (exec_store_outOfRange hx)

end Sys2Proof.Machine

/-! OUTPUT and HALT (42_io_halt.md R131, R132): execute phases that always complete, OUTPUT on the output side alone, HALT on the run state
alone. -/

namespace Sys2Proof.Machine

theorem exec_output (s : State) : exec .output s = .next (s.emitOutput s.ac).scratchMbr :=
  complete_eq (s.emitOutput s.ac)

theorem exec_halt (s : State) : exec .halt s = .next (s.setRun .halted).scratchMbr :=
  complete_eq (s.setRun .halted)

/-- A Halted engine has no step, so it fetches nothing (10_state.md R33; the fault's name is log entry 7). -/
theorem step_halted {s : State} (h : s.run = .halted) : step s = .fault .engineHalted := by
  simp [step, engineStep, h]

/-- Settles O34: the row of R72, and the completed state, in which only the OUTPUT latch, the output channel and the scratch MBR moved. -/
theorem outputEmitsAc : Obligations.OutputEmitsAc := by
  refine ⟨fun x => decodeWord_of_pattern 0x6 x .output rfl rfl nofun, fun s => ?_⟩
  have hcontrol : KeepsControl s (s.emitOutput s.ac).scratchMbr := ⟨rfl, rfl, rfl, rfl⟩
  have hmemory : KeepsMemory s (s.emitOutput s.ac).scratchMbr := fun _ => rfl
  exact ⟨_, exec_output s, rfl, rfl, rfl, rfl, rfl, rfl, rfl, hcontrol, hmemory⟩

/-- Settles O35: the row of R72, the completed state, in which only the run state and the scratch MBR moved, and the missing step after it. -/
theorem haltStopsExecution : Obligations.HaltStopsExecution := by
  refine ⟨fun x => decodeWord_of_pattern 0x7 x .halt rfl rfl nofun, fun s => ?_⟩
  have hmemory : KeepsMemory s (s.setRun .halted).scratchMbr := fun _ => rfl
  have hchannels : KeepsChannels s (s.setRun .halted).scratchMbr := ⟨rfl, rfl, rfl, rfl⟩
  exact ⟨_, exec_halt s, rfl, rfl, rfl, rfl, rfl, rfl, rfl, hmemory, hchannels, step_halted rfl⟩

end Sys2Proof.Machine

/-! SKIPCOND, JMP and CALL (43_control.md R140, R141, R142): PC is not checked where it is set, only where the next fetch uses it. -/

namespace Sys2Proof.Machine

/-- A Running engine whose PC lies outside the memory stops at its next fetch (10_state.md R23). -/
theorem failsAtNextFetch_of_memSize_le_pc {t : State} (h : t.params.memSize ≤ t.pc.toNat) : FailsAtNextFetch t :=
  fun hrun => ⟨(t.setMar t.pc).stopped (.addressOutOfRange t.pc.toNat t.pc), t.pc, step_fetchFails hrun h, rfl⟩

@[simp] theorem targetAddress_toNat (x : Operand) : (targetAddress x).toNat = x.toNat :=
  BitVec.toNat_setWidth_of_le (by decide)

/-- The word after a target is computed exactly: an operand is at most 0xFFF (43_control.md R142). -/
theorem targetAddress_add_one_toNat (x : Operand) : (targetAddress x + 1).toNat = x.toNat + 1 := by
  have hlt : (targetAddress x).toNat < 65535 := by
    rw [targetAddress_toNat]
    exact x.isLt.trans (by decide)
  rw [toNat_add_one hlt, targetAddress_toNat]

/-- A push with room writes the word at SP and raises SP (10_state.md R27). -/
theorem onPush_inRange {s : State} (v : Word) (k : State → Result) (h : s.sp.toNat < s.params.memSize) :
    onPush s v k = k ((s.writeMem s.sp.toNat v).setSp (s.sp + 1)) :=
  onWrite_inRange v (fun t => k (t.setSp (s.sp + 1))) ((inRange_pushAddress s).2 h)

/-- A push without room raises with nothing written. -/
theorem onPush_outOfRange {s : State} (v : Word) (k : State → Result) (h : s.params.memSize ≤ s.sp.toNat) :
    onPush s v k = raise (.addressOutOfRange (pushAddress s) s.instrPc) s := by
  have hrange : s.inRange (pushAddress s) = false := by
    rw [← Bool.not_eq_true, inRange_pushAddress]
    exact h.not_gt
  exact onWrite_outOfRange v (fun t => k (t.setSp (s.sp + 1))) hrange

/-- Taken or not, SKIPCOND completes and sets no register but PC. -/
theorem exec_skipcond (x : Operand) (s : State) :
    exec (.skipcond x) s = .next (s.setPc (if skips x s.ac then s.pc + 1 else s.pc)).scratchMbr := by
  cases h : skips x s.ac with
  | true => simp [exec, execSkipcond, h]
  | false =>
    have hpc : s.setPc s.pc = s := rfl
    simp [exec, execSkipcond, h, hpc]

theorem exec_jmp (x : Operand) (s : State) : exec (.jmp x) s = .next (s.setPc (targetAddress x)).scratchMarMbr :=
  completeTransfer_eq (s.setPc (targetAddress x))

/-- The state CALL leaves when the stack has room: the return address pushed, PC at the word after the target. -/
def State.called (s : State) (x : Operand) : State :=
  (((s.writeMem s.sp.toNat s.pc).setSp (s.sp + 1)).setPc (targetAddress x + 1)).scratchMarMbr

theorem exec_call_inRange {x : Operand} {s : State} (h : s.sp.toNat < s.params.memSize) :
    exec (.call x) s = .next (s.called x) :=
  onPush_inRange s.pc (fun t => completeTransfer (t.setPc (targetAddress x + 1))) h

theorem exec_call_outOfRange {x : Operand} {s : State} (h : s.params.memSize ≤ s.sp.toNat) :
    exec (.call x) s = raise (.addressOutOfRange (pushAddress s) s.instrPc) s :=
  onPush_outOfRange s.pc (fun t => completeTransfer (t.setPc (targetAddress x + 1))) h

/-- Settles O36: the row of R72, the two values of PC by the test of AC, and the fetch that fails where PC left the memory. -/
theorem skipcondSkipsOnItsCondition : Obligations.SkipcondSkipsOnItsCondition := by
  intro x s
  refine ⟨decodeWord_of_pattern 0x8 x (.skipcond x) rfl rfl fun _ => rfl, _, exec_skipcond x s,
    fun hmet => ?_, fun hneg hzero hpos => ?_, rfl, rfl, ⟨rfl, rfl, rfl, rfl⟩, fun _ => rfl, ⟨rfl, rfl, rfl, rfl⟩,
    fun hout => failsAtNextFetch_of_memSize_le_pc hout⟩
  · exact if_pos ((skips_iff x s.ac).2 hmet)
  · have hskips : ¬ skips x s.ac = true := by
      rw [skips_iff]
      rintro (h | h | h)
      exacts [hneg h, hzero h, hpos h]
    exact if_neg hskips

/-- Settles O37: the row of R72, the state with PC alone set (MAR and MBR aside), and the fetch that fails at a target outside the
memory. -/
theorem jmpSetsPcToTheOperand : Obligations.JmpSetsPcToTheOperand := by
  intro x s
  exact ⟨decodeWord_of_pattern 0x9 x (.jmp x) rfl rfl fun _ => rfl, _, exec_jmp x s, rfl, targetAddress_toNat x,
    rfl, rfl, rfl, rfl, rfl, fun _ => rfl, ⟨rfl, rfl, rfl, rfl⟩, fun hout => failsAtNextFetch_of_memSize_le_pc hout⟩

/-- Settles O38: the row of R72, the push in range by the array's read-after-write laws with the exact target, and the stop on a full
stack. -/
theorem callPushesPcAndEntersAfterTheOperand : Obligations.CallPushesPcAndEntersAfterTheOperand := by
  intro x s
  refine ⟨decodeWord_of_pattern 0xA x (.call x) rfl rfl fun _ => rfl, fun hroom => ?_, fun hfull => ?_⟩
  · have hpushed : Memory.read (s.called x).mem s.sp.toNat = s.pc := Memory.read_write_same s.mem s.sp.toNat s.pc
    have hmemory : KeepsMemoryBut (pushAddress s).toNat s (s.called x) := fun _ hb => Memory.read_write_other s.mem s.pc hb
    have hchannels : KeepsChannels s (s.called x) := ⟨rfl, rfl, rfl, rfl⟩
    exact ⟨_, exec_call_inRange hroom, hpushed, hmemory, rfl, rfl, targetAddress_add_one_toNat x, rfl, rfl, rfl, rfl,
      hchannels, fun hout => failsAtNextFetch_of_memSize_le_pc hout⟩
  · exact stopsOnAddress_of_exec_eq_raise (exec_call_outOfRange hfull)

end Sys2Proof.Machine

/-! PUSH (45_stack.md R160): the push of CALL with AC in place of the return address, and no transfer after it. -/

namespace Sys2Proof.Machine

/-- The state PUSH leaves when the stack has room: AC in the slot at SP, SP at the next one. -/
def State.pushed (s : State) : State := ((s.writeMem s.sp.toNat s.ac).setSp (s.sp + 1)).scratchMbr

theorem exec_push_inRange {s : State} (h : s.sp.toNat < s.params.memSize) : exec .push s = .next s.pushed :=
  onPush_inRange s.ac complete h

theorem exec_push_outOfRange {s : State} (h : s.params.memSize ≤ s.sp.toNat) :
    exec .push s = raise (.addressOutOfRange (pushAddress s) s.instrPc) s :=
  onPush_outOfRange s.ac complete h

/-- Settles O42: the row of R72, the push in range by the array's read-after-write laws, and the stop on a full stack. -/
theorem pushStoresAcAndRaisesSp : Obligations.PushStoresAcAndRaisesSp := by
  intro s
  refine ⟨fun x => decodeWord_of_pattern 0xE x .push rfl rfl nofun, fun hroom => ?_, fun hfull => ?_⟩
  · have hstored : Memory.read s.pushed.mem s.sp.toNat = s.ac := Memory.read_write_same s.mem s.sp.toNat s.ac
    have hmemory : KeepsMemoryBut (pushAddress s).toNat s s.pushed := fun _ hb => Memory.read_write_other s.mem s.ac hb
    have hcontrol : KeepsControl s s.pushed := ⟨rfl, rfl, rfl, rfl⟩
    have hchannels : KeepsChannels s s.pushed := ⟨rfl, rfl, rfl, rfl⟩
    exact ⟨_, exec_push_inRange hroom, hstored, hmemory, rfl, rfl, rfl, hcontrol, hchannels⟩
  · exact stopsOnAddress_of_exec_eq_raise (exec_push_outOfRange hfull)

end Sys2Proof.Machine

/-! The round trip of 30_encoding.md R90: a word is its opcode field and its operand field, and the decoder reads exactly these two. -/

namespace Sys2Proof

/-- The opcode field is the word shifted down (30_encoding.md R71). -/
theorem ushiftRight_twelve (w : Word) : w >>> 12 = (opcodeField w).setWidth 16 := by
  apply BitVec.eq_of_getLsbD_eq
  intro j hj
  by_cases h4 : j < 4
  · simp [opcodeField, h4, hj]
  · have hout : 16 ≤ 12 + j := by omega
    simp [opcodeField, h4, BitVec.getLsbD_of_ge w _ hout]

/-- An instruction is what its encoded word decodes to (30_encoding.md R90). -/
theorem decodeWord_encode (i : Instr) : decodeWord (encode i) = .instr i :=
  decodeWord_of_fields i (opcodeField_encode i) fun _ => operandField_encode i

/-- A 16-bit word of the table is decoded as it is. -/
theorem decodeTableWord_of_decodeWord {w : Word} {i : Instr} (h : decodeWord w = .instr i) :
    decodeTableWord 16 w.toNat = some i := by
  have hw : BitVec.ofNat 16 (w.toNat % 2 ^ 16) = w := by
    rw [Nat.mod_eq_of_lt w.isLt, BitVec.ofNat_toNat, BitVec.setWidth_eq]
  rw [decodeTableWord, if_pos (Nat.le_refl 16), hw, h]

/-- Settles O1: the encoded word holds the opcode and the operand in its two fields, and these fields decode to the instruction. -/
theorem decodeOfEncodeIsTheInstruction : Obligations.DecodeOfEncodeIsTheInstruction := by
  intro i
  refine ⟨decodeWord_encode i, decodeTableWord_of_decodeWord (decodeWord_encode i), ?_, ?_⟩
  · rw [ushiftRight_twelve, opcodeField_encode]
  · rw [← operandField_setWidth, operandField_encode]

/-- Where the instruction uses the operand field, the decoder hands it over as it is (30_encoding.md R73). -/
theorem operand_of_decodeWord {w : Word} {i : Instr} (h : decodeWord w = .instr i) (hu : i.usesOperand = true) :
    i.operand = operandField w := by
  have hcode := opcodeField_of_decodeWord h
  cases i with
  | input | output | halt | ret | push => cases hu
  | load x | store x | add x | sub x | skipcond x | jmp x | call x | loadi x | storei x | pop x =>
    unfold decodeWord at h
    rw [hcode] at h
    cases h
    rfl

/-- An instruction without an operand has zero in the field (30_encoding.md R83). -/
theorem Instr.operand_of_not_usesOperand {i : Instr} (h : i.usesOperand = false) : i.operand = 0 := by
  cases i with
  | input | output | halt | ret | push => rfl
  | load x | store x | add x | sub x | skipcond x | jmp x | call x | loadi x | storei x | pop x => cases h

/-- Settles O2: the encoded word is put together from the opcode field of the word, and from its operand field or zero. -/
theorem encodeOfDecodedWordIsTheWord : Obligations.EncodeOfDecodedWordIsTheWord := by
  intro w i h
  have hcode := opcodeField_of_decodeWord h
  refine ⟨hcode, fun hu => ⟨?_, operand_of_decodeWord h hu⟩, fun hu => ⟨?_, Instr.operand_of_not_usesOperand hu⟩⟩
  · rw [encode, ← hcode, operand_of_decodeWord h hu, ofFields_fields]
  · rw [encode, ← hcode, Instr.operand_of_not_usesOperand hu, opcodeField_inPlace]
    exact BitVec.or_zero

/-- Settles O4: each of the nine words by evaluating the decoder on it. -/
theorem wordsWrittenOutDecode : Obligations.WordsWrittenOutDecode := by
  unfold Obligations.WordsWrittenOutDecode
  decide

end Sys2Proof

/-! What a completed instruction leaves in memory and in SP, and the invariant of the engine (00_scope.md R7, 10_state.md R27, R32). -/

namespace Sys2Proof.Machine

/-- Taken or not, SKIPCOND sets no register but PC (43_control.md R140). -/
theorem effect_skipcond {x : Operand} {s t : State} (h : Effect (.skipcond x) s t) :
    t = (s.setPc (if skips x s.ac then s.pc + 1 else s.pc)).scratchMbr := by
  rw [Effect] at h
  rw [h]
  cases skips x s.ac <;> rfl

/-- The one address an instruction writes, if it writes memory at all (10_state.md R32). -/
def writtenAddress : Instr → State → Option Nat
  | .store x, _ => some x.toNat
  | .storei x, s => some (Memory.read s.mem x.toNat).toNat
  | .push, s => some s.sp.toNat
  | .call _, s => some s.sp.toNat
  | .pop x, _ => some x.toNat
  | .load _, _ => none
  | .add _, _ => none
  | .sub _, _ => none
  | .input, _ => none
  | .output, _ => none
  | .halt, _ => none
  | .skipcond _, _ => none
  | .jmp _, _ => none
  | .loadi _, _ => none
  | .ret, _ => none

/-- `m` and `m'` differ by one write inside an array of `n` words, at the address given, if any. -/
def WritesOnlyAt (n : Nat) (m m' : Memory) : Option Nat → Prop
  | none => m' = m
  | some a => a < n ∧ ∃ v, m' = Memory.write m a v

/-- A completed instruction writes the array at most once, in range, and only at its address (20_memory.md R51, R53). -/
theorem effect_mem {i : Instr} {s t : State} (h : Effect i s t) :
    WritesOnlyAt s.params.memSize s.mem t.mem (writtenAddress i s) := by
  cases i with
  | output | halt | jmp x => subst h; rfl
  | skipcond x => rw [effect_skipcond h]; rfl
  | input => obtain ⟨w, rest, -, rfl⟩ := h; rfl
  | load x | ret => obtain ⟨-, rfl⟩ := h; rfl
  | add x | sub x | loadi x => obtain ⟨-, -, rfl⟩ := h; rfl
  | store x | push | call x => obtain ⟨hrange, rfl⟩ := h; exact ⟨hrange, _, rfl⟩
  | storei x | pop x => obtain ⟨-, hrange, rfl⟩ := h; exact ⟨hrange, _, rfl⟩

/-- Such a write keeps the canonical form. -/
theorem WritesOnlyAt.wf {n : Nat} {m m' : Memory} {a : Option Nat} (h : WritesOnlyAt n m m' a) (hm : Memory.wf m = true) :
    Memory.wf m' = true := by
  cases a with
  | none => subst h; exact hm
  | some a => obtain ⟨-, v, rfl⟩ := h; exact Memory.wf_write a v hm

/-- Such a write lists nothing outside the array. -/
theorem WritesOnlyAt.below {n : Nat} {m m' : Memory} {a : Option Nat} (h : WritesOnlyAt n m m' a)
    (hm : Memory.below n m = true) : Memory.below n m' = true := by
  cases a with
  | none => subst h; exact hm
  | some a => obtain ⟨hrange, v, rfl⟩ := h; exact Memory.below_write v hrange hm

/-- A completed instruction moves SP by its `spDelta`, exactly, and within `0 .. MEM_SIZE` (10_state.md R27, 45_stack.md R162). -/
theorem effect_sp {i : Instr} {s t : State} (h : Effect i s t) (hsize : s.params.memSize ≤ 4096)
    (hsp : s.sp.toNat ≤ s.params.memSize) :
    (t.sp.toNat : Int) = s.sp.toNat + spDelta i ∧ t.sp.toNat ≤ s.params.memSize := by
  have hup : (s.sp + 1).toNat = s.sp.toNat + 1 := toNat_add_one (by omega)
  cases i with
  | output | halt | jmp x => subst h; exact ⟨(Int.add_zero _).symm, hsp⟩
  | skipcond x => rw [effect_skipcond h]; exact ⟨(Int.add_zero _).symm, hsp⟩
  | input => obtain ⟨w, rest, -, rfl⟩ := h; exact ⟨(Int.add_zero _).symm, hsp⟩
  | load x | store x => obtain ⟨-, rfl⟩ := h; exact ⟨(Int.add_zero _).symm, hsp⟩
  | add x | sub x | loadi x | storei x => obtain ⟨-, -, rfl⟩ := h; exact ⟨(Int.add_zero _).symm, hsp⟩
  | push | call x =>
    obtain ⟨hroom, rfl⟩ := h
    simp only [State.scratchMbr_sp, State.scratchMarMbr_sp, State.setPc_sp, State.setSp_sp, spDelta, hup]
    omega
  | ret =>
    obtain ⟨⟨hpos, -⟩, rfl⟩ := h
    simp only [State.scratchMarMbr_sp, State.setSp_sp, spDelta, toNat_sub_one hpos]
    omega
  | pop x =>
    obtain ⟨⟨hpos, -⟩, -, rfl⟩ := h
    simp only [State.scratchMbr_sp, State.setSp_sp, spDelta, toNat_sub_one hpos]
    omega

/-- A completed instruction keeps the invariant. -/
theorem effect_keeps_inv {i : Instr} {s t : State} (h : Effect i s t) (hs : s.Inv) : t.Inv := by
  obtain ⟨hparams, hwf, hbelow, hsp⟩ := hs
  obtain ⟨-, hkept, -⟩ := effect_frame h
  have hmem := effect_mem h
  obtain ⟨-, hsp'⟩ := effect_sp h (memSize_le_of_wf hparams) hsp
  unfold State.Inv
  rw [hkept]
  exact ⟨hparams, hmem.wf hwf, hmem.below hbelow, hsp'⟩

/-- A step to a next state, in two cases: a unit has completed, or an error has stopped the engine in the state that a failed fetch, or
fetch and decode, left (40_fetch_decode_execute.md R104, 60_exceptions.md R177). -/
theorem step_next_cases {s t : State} (hrun : s.run = .running) (hstep : step s = .next t) :
    (∃ i, Runs s i ∧ Effect i (s.fetched (Memory.read s.mem s.pc.toNat)) t) ∨
    (∃ u e, (u = s.setMar s.pc ∨ u = s.fetched (Memory.read s.mem s.pc.toNat)) ∧ t = u.stopped e) := by
  rcases step_cases hrun with ⟨-, h⟩ | ⟨-, -, h⟩ | ⟨-, -, h⟩ | ⟨i, u, hi, heff, h⟩ | ⟨i, e, -, -, h⟩ <;>
    cases h.symm.trans hstep
  case inl => exact .inr ⟨_, _, .inl rfl, rfl⟩
  case inr.inl => exact .inr ⟨_, _, .inr rfl, rfl⟩
  case inr.inr.inr.inl => exact .inl ⟨i, hi, heff⟩
  case inr.inr.inr.inr => exact .inr ⟨_, _, .inr rfl, rfl⟩

/-- Settles O13: a completed instruction keeps the invariant, and an error stop keeps parameters, memory and SP. -/
theorem stepKeepsTheInvariant : Obligations.StepKeepsTheInvariant := by
  intro s t hinv hstep
  rcases step_next_cases (run_of_step hstep) hstep with ⟨i, -, heff⟩ | ⟨u, e, rfl | rfl, rfl⟩
  · exact effect_keeps_inv heff hinv
  · exact hinv
  · exact hinv

/-- Settles O14: the zero array and the default parameters, evaluated. -/
theorem resetMeetsTheInvariant : Obligations.ResetMeetsTheInvariant := by
  unfold Obligations.ResetMeetsTheInvariant
  decide

/-- Settles O21: an instruction that leaves no error has completed, and a completed one moves SP by its `spDelta`. -/
theorem spCountsPushesAndPops : Obligations.SpCountsPushesAndPops := by
  rintro i s t ⟨hparams, -, -, hsp⟩ - hexec hsafe
  rcases exec_next hexec with he | ⟨e, -, rfl⟩
  · exact (effect_sp he (memSize_le_of_wf hparams) hsp).1
  · cases hsafe

/-- A memory that differs by such a write reads the same at every other address. -/
theorem WritesOnlyAt.keepsMemoryBut {s t : State} {n a : Nat} (h : WritesOnlyAt n s.mem t.mem (some a)) :
    KeepsMemoryBut a s t := by
  obtain ⟨-, v, hv⟩ := h
  intro b hb
  rw [hv, Memory.read_write_other s.mem v hb]

/-- What an execute phase changes in memory, an error stop included: at most the word at its address (20_memory.md R51). -/
theorem exec_keeps_memory {i : Instr} {s t : State} (h : exec i s = .next t) :
    (writtenAddress i s = none → KeepsMemory s t) ∧ ∀ a, writtenAddress i s = some a → KeepsMemoryBut a s t := by
  rcases exec_next h with he | ⟨e, -, rfl⟩
  · have hmem := effect_mem he
    constructor
    · intro hnone b
      rw [hnone] at hmem
      exact congrArg (Memory.read · b) hmem
    · intro a hsome
      rw [hsome] at hmem
      exact hmem.keepsMemoryBut
  · exact ⟨fun _ _ => rfl, fun _ _ _ _ => rfl⟩

/-- Only these five instructions have an address to write (10_state.md R32). -/
theorem writtenAddress_eq_none {i : Instr} (s : State) (hstore : ∀ x, i ≠ .store x) (hstorei : ∀ x, i ≠ .storei x)
    (hpush : i ≠ .push) (hpop : ∀ x, i ≠ .pop x) (hcall : ∀ x, i ≠ .call x) : writtenAddress i s = none := by
  cases i with
  | store x => exact absurd rfl (hstore x)
  | storei x => exact absurd rfl (hstorei x)
  | push => exact absurd rfl hpush
  | pop x => exact absurd rfl (hpop x)
  | call x => exact absurd rfl (hcall x)
  | load x | add x | sub x | input | output | halt | skipcond x | jmp x | loadi x | ret => rfl

/-- Settles O18: each of the five by its address, and the other instructions by having none. -/
theorem onlyFiveInstructionsWriteMemory : Obligations.OnlyFiveInstructionsWriteMemory := by
  intro i s t hexec
  obtain ⟨hnone, hsome⟩ := exec_keeps_memory hexec
  refine ⟨fun hstore hstorei hpush hpop hcall => hnone (writtenAddress_eq_none s hstore hstorei hpush hpop hcall),
    ?_, ?_, ?_, ?_, ?_⟩
  · rintro x rfl; exact hsome _ rfl
  · rintro x rfl; exact hsome _ rfl
  · rintro rfl; exact hsome _ rfl
  · rintro x rfl; exact hsome _ rfl
  · rintro x rfl; exact hsome _ rfl

/-- Settles O20: a completed instruction has the frame of `effect_frame`, and an error stop sets neither. -/
theorem executePhaseKeepsIrAndParameters : Obligations.ExecutePhaseKeepsIrAndParameters := by
  intro i s t hexec
  rcases exec_next hexec with he | ⟨e, -, rfl⟩
  · obtain ⟨hir, hparams, -⟩ := effect_frame he
    exact ⟨hir, hparams⟩
  · exact ⟨State.stopped_ir s e, State.stopped_params s e⟩

/-- A completed instruction other than LOAD, LOADI, ADD, SUB and INPUT leaves AC (10_state.md R21). -/
theorem effect_ac {i : Instr} {s t : State} (h : Effect i s t) (hload : ∀ x, i ≠ .load x) (hloadi : ∀ x, i ≠ .loadi x)
    (hadd : ∀ x, i ≠ .add x) (hsub : ∀ x, i ≠ .sub x) (hinput : i ≠ .input) : t.ac = s.ac := by
  cases i with
  | load x => exact absurd rfl (hload x)
  | loadi x => exact absurd rfl (hloadi x)
  | add x => exact absurd rfl (hadd x)
  | sub x => exact absurd rfl (hsub x)
  | input => exact absurd rfl hinput
  | output | halt | jmp x => subst h; rfl
  | skipcond x => rw [effect_skipcond h]; rfl
  | store x | call x | ret | push => obtain ⟨-, rfl⟩ := h; rfl
  | storei x | pop x => obtain ⟨-, -, rfl⟩ := h; rfl

/-- Settles O17: a completed instruction by its effect on AC, and an error stop keeps AC whatever the instruction. -/
theorem onlyFiveInstructionsWriteAc : Obligations.OnlyFiveInstructionsWriteAc := by
  intro i s t hexec hload hloadi hadd hsub hinput
  rcases exec_next hexec with he | ⟨e, -, rfl⟩
  · exact effect_ac he hload hloadi hadd hsub hinput
  · exact State.stopped_ac s e

end Sys2Proof.Machine

/-! ADD and SUB (41_load_store_arith.md R120, R123, R124): one law for an exact result, whether it is a sum or a difference. -/

namespace Sys2Proof.Machine

/-- A result that fits, or any result under `wrap16`, goes into AC. -/
theorem accumulate_eq_complete {r : Int} {s : State} (h : fits16 r = true ∨ s.params.acOverflow = .wrap16) :
    accumulate r s = complete (s.setAc (u16 r)) := by
  rcases accumulate_cases r s with ⟨-, ha⟩ | ⟨⟨hf, hp⟩, -⟩
  · exact ha
  · simp [hf, hp] at h

/-- A result that does not fit is raised under `fault`. -/
theorem accumulate_eq_raise {r : Int} {s : State} (hf : fits16 r = false) (hp : s.params.acOverflow = .fault) :
    accumulate r s = raise (.arithmeticOverflow r s.instrPc) s := by
  rcases accumulate_cases r s with ⟨h, -⟩ | ⟨-, ha⟩
  · simp [hf, hp] at h
  · exact ha

theorem exec_add_inRange {x : Operand} {s : State} (h : x.toNat < s.params.memSize) :
    exec (.add x) s = accumulate (exactSum s.ac (Memory.read s.mem x.toNat)) s :=
  onRead_inRange (fun w => accumulate (exactSum s.ac w) s) ((inRange_directAddress s x).2 h)

theorem exec_add_outOfRange {x : Operand} {s : State} (h : s.params.memSize ≤ x.toNat) :
    exec (.add x) s = raise (.addressOutOfRange (directAddress x) s.instrPc) s :=
  onRead_outOfRange (fun w => accumulate (exactSum s.ac w) s) (inRange_directAddress_eq_false h)

theorem exec_sub_inRange {x : Operand} {s : State} (h : x.toNat < s.params.memSize) :
    exec (.sub x) s = accumulate (exactDifference s.ac (Memory.read s.mem x.toNat)) s :=
  onRead_inRange (fun w => accumulate (exactDifference s.ac w) s) ((inRange_directAddress s x).2 h)

theorem exec_sub_outOfRange {x : Operand} {s : State} (h : s.params.memSize ≤ x.toNat) :
    exec (.sub x) s = raise (.addressOutOfRange (directAddress x) s.instrPc) s :=
  onRead_outOfRange (fun w => accumulate (exactDifference s.ac w) s) (inRange_directAddress_eq_false h)

/-- An execute phase that accumulates `r` and may complete puts its pattern in AC, exact where it fits, and changes nothing else. -/
theorem accumulates_result {i : Instr} {s : State} {r : Int} (hexec : exec i s = accumulate r s)
    (h : (-32768 ≤ r ∧ r ≤ 32767) ∨ s.params.acOverflow = .wrap16) :
    ∃ t, exec i s = .next t ∧ t.ac = u16 r ∧ (-32768 ≤ r → r ≤ 32767 → t.ac.toInt = r) ∧
      t.pc = s.pc ∧ t.sp = s.sp ∧ KeepsControl s t ∧ KeepsMemory s t ∧ KeepsChannels s t := by
  rw [← fits16_iff] at h
  exact ⟨(s.setAc (u16 r)).scratchMbr, hexec.trans (accumulate_eq_complete h), rfl, toInt_u16, rfl, rfl,
    ⟨rfl, rfl, rfl, rfl⟩, fun _ => rfl, ⟨rfl, rfl, rfl, rfl⟩⟩

/-- An execute phase that accumulates an `r` that does not fit stops under `fault` with everything else kept (60_exceptions.md R174). -/
theorem stops_on_overflow {i : Instr} {s : State} {r : Int} (hexec : exec i s = accumulate r s)
    (hr : r < -32768 ∨ 32767 < r) (hp : s.params.acOverflow = .fault) :
    ∃ t pc, exec i s = .next t ∧ t.run = .faulted (.arithmeticOverflow r pc) ∧
      t.ac = s.ac ∧ t.pc = s.pc ∧ t.sp = s.sp ∧ KeepsMemory s t ∧ KeepsChannels s t := by
  have hf : fits16 r = false := by
    rw [← Bool.not_eq_true, fits16_iff]
    omega
  exact ⟨s.stopped (.arithmeticOverflow r s.instrPc), s.instrPc, hexec.trans (accumulate_eq_raise hf hp), rfl, rfl, rfl,
    rfl, fun _ => rfl, ⟨rfl, rfl, rfl, rfl⟩⟩

/-- Settles O30: the row of R72, and the law for an exact result at the exact sum. -/
theorem addPutsTheSumInAc : Obligations.AddPutsTheSumInAc := by
  intro x s
  refine ⟨decodeWord_of_pattern 0x3 x (.add x) rfl rfl fun _ => rfl, fun hx hfit => ?_, fun hx hr hp => ?_, fun hx => ?_⟩
  · rw [← u16_exactSum]
    exact accumulates_result (exec_add_inRange hx) hfit
  · exact stops_on_overflow (exec_add_inRange hx) hr hp
  · exact stopsOnAddress_of_exec_eq_raise (exec_add_outOfRange hx)

/-- Settles O31: the row of R72, and the law for an exact result at the exact difference. -/
theorem subPutsTheDifferenceInAc : Obligations.SubPutsTheDifferenceInAc := by
  intro x s
  refine ⟨decodeWord_of_pattern 0x4 x (.sub x) rfl rfl fun _ => rfl, fun hx hfit => ?_, fun hx hr hp => ?_, fun hx => ?_⟩
  · rw [← u16_exactDifference]
    exact accumulates_result (exec_sub_inRange hx) hfit
  · exact stops_on_overflow (exec_sub_inRange hx) hr hp
  · exact stopsOnAddress_of_exec_eq_raise (exec_sub_outOfRange hx)

/-- A pattern is that of its unsigned reading (00_scope.md R9). -/
theorem u16_toNat (a : Word) : u16 a.toNat = a := by
  rw [u16, BitVec.ofInt_natCast, BitVec.ofNat_toNat, BitVec.setWidth_eq]

/-- The pattern of a sum or difference depends on its operands' patterns alone, so the signed and the unsigned reading give the same. -/
theorem u16_toNat_add (a m : Word) : u16 ((a.toNat : Int) + m.toNat) = a + m := by
  calc u16 ((a.toNat : Int) + m.toNat) = u16 a.toNat + u16 m.toNat := BitVec.ofInt_add _ _
    _ = a + m := by rw [u16_toNat, u16_toNat]

theorem u16_toNat_sub (a m : Word) : u16 ((a.toNat : Int) - m.toNat) = a - m := by
  apply eq_sub_of_add_eq
  calc u16 ((a.toNat : Int) - m.toNat) + m
      = u16 ((a.toNat : Int) - m.toNat) + u16 m.toNat := by rw [u16_toNat]
    _ = u16 ((a.toNat : Int) - m.toNat + m.toNat) := (BitVec.ofInt_add _ _).symm
    _ = a := by rw [Int.sub_add_cancel, u16_toNat]

/-- The signed reading of a word is a 16-bit signed number (00_scope.md R9). -/
theorem s16_range (w : Word) : -32768 ≤ s16 w ∧ s16 w ≤ 32767 := by
  have hlo := BitVec.le_toInt w
  have hhi := BitVec.toInt_lt (x := w)
  norm_num at hlo hhi
  exact ⟨hlo, Int.le_of_lt_add_one hhi⟩

/-- A result is recovered from its pattern exactly when it fits. -/
theorem fits16_iff_s16_u16 (r : Int) : fits16 r = true ↔ s16 (u16 r) = r := by
  rw [fits16_iff]
  constructor
  · rintro ⟨hlo, hhi⟩
    exact toInt_u16 hlo hhi
  · intro h
    rw [← h]
    exact s16_range (u16 r)

/-- Settles O47: both readings give the sum or difference of the patterns; the bounds are those of two signed words. -/
theorem signedAndUnsignedSumsAgree : Obligations.SignedAndUnsignedSumsAgree := by
  intro a m
  refine ⟨?_, ?_, ?_, fits16_iff_s16_u16⟩
  · rw [u16_exactSum, u16_toNat_add]
  · rw [u16_exactDifference, u16_toNat_sub]
  · have ha := s16_range a
    have hm := s16_range m
    unfold exactSum exactDifference
    omega

end Sys2Proof.Machine

/-! Noninterference (60_exceptions.md R182): MAR, MBR, IR and the counter of free values are replaced as a whole, and every operation an
execute phase is built from is shown not to look at them. -/

namespace Sys2Proof.Machine

/-- `s` with MAR, MBR, IR and the counter of free values of another state. -/
def State.withScratch (s u : State) : State := { s with mar := u.mar, mbr := u.mbr, ir := u.ir, draws := u.draws }

@[simp] theorem State.withScratch_run (s u : State) : (s.withScratch u).run = s.run := rfl
@[simp] theorem State.withScratch_inputChannel (s u : State) : (s.withScratch u).inputChannel = s.inputChannel := rfl
@[simp] theorem State.withScratch_fetchWord (s u : State) : (s.withScratch u).fetchWord = s.fetchWord := rfl

theorem sameButScratch_withScratch (s u : State) : SameButScratch s (s.withScratch u) :=
  ⟨rfl, rfl, rfl, rfl, rfl, rfl, rfl, rfl, rfl, rfl⟩

/-- A state that differs only there is `s` with these registers replaced. -/
theorem SameButScratch.eq_withScratch {s s' : State} (h : SameButScratch s s') : s' = s.withScratch s' := by
  cases s
  cases s'
  obtain ⟨rfl, rfl, rfl, rfl, rfl, rfl, rfl, rfl, rfl, rfl⟩ := h
  rfl

/-- Two answers that differ at most in these registers of a next state. -/
def SameOutcome : Result → Result → Prop
  | .next t, r => ∃ t', r = .next t' ∧ SameButScratch t t'
  | .fault f, r => r = .fault f
  | .refused c, r => r = .refused c

theorem sameOutcome_raise (e : RunError) (s u : State) : SameOutcome (raise e s) (raise e (s.withScratch u)) :=
  ⟨(s.withScratch u).stopped e, rfl, rfl, rfl, rfl, rfl, rfl, rfl, rfl, rfl, rfl, rfl⟩

theorem sameOutcome_complete (s u : State) : SameOutcome (complete s) (complete (s.withScratch u)) :=
  ⟨(s.withScratch u).scratchMbr, rfl, sameButScratch_withScratch s u⟩

theorem sameOutcome_completeTransfer (s u : State) :
    SameOutcome (completeTransfer s) (completeTransfer (s.withScratch u)) :=
  ⟨(s.withScratch u).scratchMarMbr, rfl, sameButScratch_withScratch s u⟩

theorem sameOutcome_onRead (s u : State) (a : Int) {k k' : Word → Result} (hk : ∀ w, SameOutcome (k w) (k' w)) :
    SameOutcome (onRead s a k) (onRead (s.withScratch u) a k') := by
  cases h : s.inRange a with
  | true =>
    rw [onRead_inRange k h, onRead_inRange (s := s.withScratch u) k' h]
    exact hk _
  | false =>
    rw [onRead_outOfRange k h, onRead_outOfRange (s := s.withScratch u) k' h]
    exact sameOutcome_raise _ s u

theorem sameOutcome_onWrite (s u : State) (a : Int) (v : Word) {k k' : State → Result}
    (hk : ∀ t, SameOutcome (k t) (k' (t.withScratch u))) :
    SameOutcome (onWrite s a v k) (onWrite (s.withScratch u) a v k') := by
  cases h : s.inRange a with
  | true =>
    rw [onWrite_inRange v k h, onWrite_inRange (s := s.withScratch u) v k' h]
    exact hk _
  | false =>
    rw [onWrite_outOfRange v k h, onWrite_outOfRange (s := s.withScratch u) v k' h]
    exact sameOutcome_raise _ s u

theorem sameOutcome_onPush (s u : State) (v : Word) {k k' : State → Result}
    (hk : ∀ t, SameOutcome (k t) (k' (t.withScratch u))) :
    SameOutcome (onPush s v k) (onPush (s.withScratch u) v k') :=
  sameOutcome_onWrite s u (pushAddress s) v (k' := fun t => k' (t.setSp (s.sp + 1))) fun t => hk (t.setSp (s.sp + 1))

theorem sameOutcome_accumulate (r : Int) (s u : State) :
    SameOutcome (accumulate r s) (accumulate r (s.withScratch u)) := by
  by_cases h : fits16 r = true ∨ s.params.acOverflow = .wrap16
  · rw [accumulate_eq_complete h, accumulate_eq_complete (s := s.withScratch u) h]
    exact sameOutcome_complete (s.setAc (u16 r)) u
  · rcases accumulate_cases r s with ⟨hc, -⟩ | ⟨⟨hf, hp⟩, -⟩
    · exact absurd hc h
    · rw [accumulate_eq_raise hf hp, accumulate_eq_raise (s := s.withScratch u) hf hp]
      exact sameOutcome_raise _ s u

theorem sameOutcome_execInput (s u : State) : SameOutcome (execInput s) (execInput (s.withScratch u)) := by
  unfold execInput
  rw [State.withScratch_inputChannel]
  cases s.inputChannel with
  | nil => rfl
  | cons w rest => exact sameOutcome_complete ((s.latchInput w rest).setAc w) u

theorem sameOutcome_execSkipcond (x : Operand) (s u : State) :
    SameOutcome (exec (.skipcond x) s) (exec (.skipcond x) (s.withScratch u)) := by
  rw [exec_skipcond, exec_skipcond]
  exact sameOutcome_complete (s.setPc (if skips x s.ac then s.pc + 1 else s.pc)) u

theorem sameOutcome_execCall (x : Operand) (s u : State) :
    SameOutcome (execCall x s) (execCall x (s.withScratch u)) :=
  sameOutcome_onPush s u s.pc (k' := fun t => completeTransfer (t.setPc (targetAddress x + 1))) fun t =>
    sameOutcome_completeTransfer (t.setPc (targetAddress x + 1)) u

/-- No execute phase reads these registers. -/
theorem sameOutcome_exec (i : Instr) (s u : State) : SameOutcome (exec i s) (exec i (s.withScratch u)) := by
  cases i with
  | load x => exact sameOutcome_onRead s u _ fun w => sameOutcome_complete (s.setAc w) u
  | store x => exact sameOutcome_onWrite s u _ _ fun t => sameOutcome_complete t u
  | add x => exact sameOutcome_onRead s u _ fun w => sameOutcome_accumulate (exactSum s.ac w) s u
  | sub x => exact sameOutcome_onRead s u _ fun w => sameOutcome_accumulate (exactDifference s.ac w) s u
  | input => exact sameOutcome_execInput s u
  | output => exact sameOutcome_complete (s.emitOutput s.ac) u
  | halt => exact sameOutcome_complete (s.setRun .halted) u
  | skipcond x => exact sameOutcome_execSkipcond x s u
  | jmp x => exact sameOutcome_completeTransfer (s.setPc (targetAddress x)) u
  | call x => exact sameOutcome_execCall x s u
  | loadi x =>
    exact sameOutcome_onRead s u _ fun p => sameOutcome_onRead s u _ fun w => sameOutcome_complete (s.setAc w) u
  | ret => exact sameOutcome_onRead s u _ fun w => sameOutcome_completeTransfer ((s.setPc w).setSp (s.sp - 1)) u
  | storei x =>
    exact sameOutcome_onRead s u _ fun p => sameOutcome_onWrite s u _ _ fun t => sameOutcome_complete t u
  | push => exact sameOutcome_onPush s u _ fun t => sameOutcome_complete t u
  | pop x =>
    exact sameOutcome_onRead s u _ fun w => sameOutcome_onWrite s u _ _ fun t =>
      sameOutcome_complete (t.setSp (s.sp - 1)) u

/-- Decode and dispatch take the fetched word, not what IR held before it. -/
theorem sameOutcome_execute (s u : State) (w : Word) : SameOutcome (execute s w) (execute (s.withScratch u) w) := by
  have hunknown : SameOutcome (raiseUnknownOpcode (s.fetched w)) (raiseUnknownOpcode ((s.withScratch u).fetched w)) :=
    sameOutcome_raise (.unknownOpcode (opcodeInPlace w) (s.fetched w).instrPc) (s.fetched w) ((s.withScratch u).fetched w)
  unfold execute
  cases decodeWord w with
  | unknownOpcode o => exact hunknown
  | instr i =>
    dsimp only
    by_cases h : i.wellFormed s.params = true
    · have hu : i.wellFormed (s.withScratch u).params = true := h
      rw [if_pos h, if_pos hu]
      exact sameOutcome_exec i (s.fetched w) ((s.withScratch u).fetched w)
    · have hu : ¬ i.wellFormed (s.withScratch u).params = true := h
      rw [if_neg h, if_neg hu]
      exact hunknown

/-- Fetch reads PC and memory alone. -/
theorem sameOutcome_cycle (s u : State) : SameOutcome (cycle s) (cycle (s.withScratch u)) := by
  unfold cycle
  rw [State.withScratch_fetchWord]
  cases s.fetchWord with
  | none =>
    exact sameOutcome_raise (.addressOutOfRange s.pc.toNat s.pc) (s.setMar s.pc) ((s.withScratch u).setMar s.pc)
  | some w => exact sameOutcome_execute s u w

theorem sameOutcome_step (s u : State) : SameOutcome (step s) (step (s.withScratch u)) := by
  unfold step engineStep
  rw [State.withScratch_run]
  cases s.run with
  | running => exact sameOutcome_cycle s u
  | halted => rfl
  | faulted e => rfl

/-- Settles O22: the second engine is the first with MAR, MBR and IR replaced, and no step reads them. -/
theorem scratchRegistersAreNeverRead : Obligations.ScratchRegistersAreNeverRead := by
  intro s s' hsame
  have hstep : SameOutcome (step s) (step s') := by
    rw [hsame.eq_withScratch]
    exact sameOutcome_step s s'
  constructor
  · intro t ht
    rw [ht] at hstep
    exact hstep
  · intro f hf
    rw [hf] at hstep
    exact hstep

end Sys2Proof.Machine

/-! The step (40_fetch_decode_execute.md R100 to R104): which unit runs, how a step stops on an error, and what a completed step moves. -/

namespace Sys2Proof.Machine

/-- Every opcode is listed (30_encoding.md R72). -/
theorem mem_opcode_all (o : Opcode) : o ∈ Opcode.all := by
  cases o <;> decide

/-- No two opcodes have the same value (30_encoding.md R72). -/
theorem opcode_code_injective {o p : Opcode} (h : o.code = p.code) : o = p := by
  have hall : ∀ o ∈ Opcode.all, ∀ p ∈ Opcode.all, o.code = p.code → o = p := by decide
  exact hall o (mem_opcode_all o) p (mem_opcode_all p) h

/-- An instruction without an operand runs exactly on the words of its opcode, if that is enabled (30_encoding.md R74, R77). -/
theorem runs_iff_of_not_usesOperand {s : State} {i : Instr} (hi : i.usesOperand = false) :
    Runs s i ↔ s.pc.toNat < s.params.memSize ∧ opcodeField (Memory.read s.mem s.pc.toNat) = i.opcode.code ∧
      s.params.enabled.contains i.opcode = true := by
  constructor
  · rintro ⟨hpc, hdecode, hwf⟩
    exact ⟨hpc, opcodeField_of_decodeWord hdecode, hwf⟩
  · rintro ⟨hpc, hcode, henabled⟩
    have hoperand : i.usesOperand = true → operandField (Memory.read s.mem s.pc.toNat) = i.operand := by simp [hi]
    exact ⟨hpc, decodeWord_of_fields i hcode hoperand, henabled⟩

/-- Settles O5: the state is the one that fetch and decode leave. -/
theorem stepRunsTheDecodedInstruction : Obligations.StepRunsTheDecodedInstruction := by
  intro s i hrun hpc hdecode hwf
  exact ⟨s.fetched (Memory.read s.mem s.pc.toNat), rfl, rfl, rfl, rfl, rfl, rfl, rfl, rfl, rfl, rfl,
    ⟨rfl, rfl, rfl, rfl⟩, step_runs hrun ⟨hpc, hdecode, hwf⟩⟩

/-- Settles O6: the stop of a failed fetch, in which only MAR has been set. -/
theorem fetchOutOfRangeStops : Obligations.FetchOutOfRangeStops := by
  intro s hrun hpc
  exact ⟨_, step_fetchFails hrun hpc, rfl, rfl, rfl, rfl, rfl, rfl, rfl, fun _ => rfl, ⟨rfl, rfl, rfl, rfl⟩⟩

/-- A word with opcode 0x0 or with a disabled opcode decodes to no instruction that the engine has (30_encoding.md R75, R77). -/
theorem not_wellFormed_of_unknown_opcode {p : Params} {w : Word}
    (h : opcodeField w = 0 ∨ ∃ o : Opcode, opcodeField w = o.code ∧ p.enabled.contains o = false) (i : Instr)
    (hi : decodeWord w = .instr i) : i.wellFormed p = false := by
  have hcode := opcodeField_of_decodeWord hi
  rcases h with hzero | ⟨o, ho, hdisabled⟩
  · exact absurd (hcode.symm.trans hzero) i.opcode.code_ne_zero
  · rw [opcode_code_injective (ho.symm.trans hcode)] at hdisabled
    exact hdisabled

/-- Settles O7: no unit runs for such a word, and the step stops in the state that fetch and decode left. -/
theorem unknownOpcodeStops : Obligations.UnknownOpcodeStops := by
  intro s w hrun hpc hw hopcode
  subst hw
  have hstep := step_unknown hrun hpc (not_wellFormed_of_unknown_opcode hopcode)
  rw [State.fetched_instrPc] at hstep
  exact ⟨_, hstep, rfl, rfl, rfl, rfl, rfl, rfl, rfl, fun _ => rfl, ⟨rfl, rfl, rfl, rfl⟩⟩

theorem step_faulted {s : State} {e : RunError} (h : s.run = .faulted e) : step s = .fault (.engineFaulted e) := by
  simp [step, engineStep, h]

/-- Settles O8: the step looks at the run state first. -/
theorem stoppedEngineHasNoStep : Obligations.StoppedEngineHasNoStep :=
  fun _ => ⟨step_halted, fun _ => step_faulted⟩

/-- The step that waits: INPUT runs and no word is pending (42_io_halt.md R130). -/
theorem step_waits {s : State} (h : s.run = .running) (hi : Runs s .input) (hc : s.inputChannel = []) :
    step s = .fault .inputWait := by
  rw [step_runs h hi]
  simp [exec, execInput, hc]

/-- Settles O9: of the cases of a step, only the waiting INPUT answers no next state. -/
theorem runningEngineHasNoStepOnlyToWait : Obligations.RunningEngineHasNoStepOnlyToWait := by
  intro s hrun
  have hcases : Runs s .input ∧ s.inputChannel = [] ∨ ∃ t, step s = .next t := by
    rcases step_cases hrun with ⟨-, h⟩ | ⟨-, -, h⟩ | ⟨hi, hc, -⟩ | ⟨i, t, -, -, h⟩ | ⟨i, e, -, -, h⟩
    · exact .inr ⟨_, h⟩
    · exact .inr ⟨_, h⟩
    · exact .inl ⟨hi, hc⟩
    · exact .inr ⟨_, h⟩
    · exact .inr ⟨_, h⟩
  have hruns := runs_iff_of_not_usesOperand (s := s) (i := .input) rfl
  refine ⟨⟨fun hwait => ?_, fun ⟨hpc, hcode, henabled, hc⟩ => ?_⟩, fun hnext => ?_⟩
  · rcases hcases with ⟨hi, hc⟩ | ⟨t, ht⟩
    · obtain ⟨hpc, hcode, henabled⟩ := hruns.1 hi
      exact ⟨hpc, hcode, henabled, hc⟩
    · cases ht.symm.trans hwait
  · exact step_waits hrun (hruns.2 ⟨hpc, hcode, henabled⟩) hc
  · rcases hcases with ⟨hi, hc⟩ | ht
    · exact absurd (step_waits hrun hi hc) hnext
    · exact ht

/-- The inversion lemma of a step that stops on an error: a failed fetch, or, in the state that fetch and decode left, an unknown opcode or
the error that the unit raises (60_exceptions.md R170). -/
theorem step_error_cases {s t : State} {e : RunError} (hrun : s.run = .running) (hstep : step s = .next t)
    (he : t.run = .faulted e) :
    (s.params.memSize ≤ s.pc.toNat ∧ e = .addressOutOfRange s.pc.toNat s.pc ∧ t = (s.setMar s.pc).stopped e) ∨
    (s.pc.toNat < s.params.memSize ∧ t = (s.fetched (Memory.read s.mem s.pc.toNat)).stopped e ∧
      ((e = .unknownOpcode (opcodeInPlace (Memory.read s.mem s.pc.toNat)) s.pc ∧
          ∀ i, decodeWord (Memory.read s.mem s.pc.toNat) = .instr i → i.wellFormed s.params = false) ∨
        ∃ i, Runs s i ∧ Raises i (s.fetched (Memory.read s.mem s.pc.toNat)) e)) := by
  rcases step_cases hrun with ⟨hpc, h⟩ | ⟨hpc, hu, h⟩ | ⟨-, -, h⟩ | ⟨i, u, -, heff, h⟩ | ⟨i, e', hi, hr, h⟩ <;>
    cases h.symm.trans hstep
  case inl =>
    cases he
    exact .inl ⟨hpc, rfl, rfl⟩
  case inr.inl =>
    cases he
    exact .inr ⟨hpc, rfl, .inl ⟨rfl, hu⟩⟩
  case inr.inr.inr.inl =>
    rcases effect_run heff with hkept | ⟨-, hhalted⟩
    · rw [State.fetched_run, hrun, he] at hkept
      cases hkept
    · rw [he] at hhalted
      cases hhalted
  case inr.inr.inr.inr =>
    cases he
    exact .inr ⟨hi.1, rfl, .inr ⟨i, hi, hr⟩⟩

/-- Settles O10: a stop keeps what the state it was raised in holds, which is that of the failed fetch or that of fetch and decode. -/
theorem errorsArePrecise : Obligations.ErrorsArePrecise := by
  intro s t e hrun hstep he
  rcases step_error_cases hrun hstep he with ⟨hpc, -, rfl⟩ | ⟨hpc, rfl, -⟩
  · exact ⟨rfl, rfl, rfl, fun _ => rfl, ⟨rfl, rfl, rfl, rfl⟩, .inl ⟨hpc, rfl, rfl, rfl⟩⟩
  · exact ⟨rfl, rfl, rfl, fun _ => rfl, ⟨rfl, rfl, rfl, rfl⟩, .inr ⟨hpc, rfl, rfl, rfl⟩⟩

/-- Settles O11: the errors of a step, and for a unit the two kinds that `raises_cases` gives, with PC - 1 as the record's address. -/
theorem errorsAreTheListedOnes : Obligations.ErrorsAreTheListedOnes := by
  intro s t e hrun hstep he
  rcases step_error_cases hrun hstep he with ⟨hpc, hfetch, -⟩ | ⟨hpc, -, hunknown | ⟨i, ⟨-, hdecode, hwf⟩, hraises⟩⟩
  · exact .inl ⟨hfetch, hpc⟩
  · exact .inr ⟨hpc, .inl hunknown⟩
  · refine .inr ⟨hpc, .inr ⟨i, hdecode, hwf, ?_⟩⟩
    rcases raises_cases hraises with ⟨a, ⟨hrange, haddress⟩, hnot⟩ | ⟨r, hoverflow, hpolicy, hfits, hi⟩
    · rw [State.fetched_instrPc] at haddress
      exact .inl ⟨a, haddress, inRange_false hrange, hnot⟩
    · rw [State.fetched_instrPc] at hoverflow
      exact .inr ⟨r, hoverflow, hpolicy, fits16_false hfits, hi⟩

/-- With 4096 words every operand is an address of the memory (20_memory.md R54). -/
theorem not_addressError_directAddress {s : State} {x : Operand} {e : RunError} (hsize : s.params.memSize = 4096) :
    ¬ AddressError s (directAddress x) e := by
  rintro ⟨hrange, -⟩
  have hx : x.toNat < s.params.memSize := by
    rw [hsize]
    exact x.isLt
  rw [(inRange_directAddress s x).2 hx] at hrange
  cases hrange

/-- A failed push names SP, which is not below MEM_SIZE (20_memory.md R54). -/
theorem addressError_pushAddress {s : State} {a : Int} {pc : Word}
    (h : AddressError s (pushAddress s) (.addressOutOfRange a pc)) : s.params.memSize ≤ s.sp.toNat ∧ a = s.sp.toNat := by
  obtain ⟨hrange, he⟩ := h
  cases he
  rw [← Bool.not_eq_true, inRange_pushAddress] at hrange
  exact ⟨Nat.le_of_not_lt hrange, rfl⟩

/-- A failed pop with SP in `0 .. MEM_SIZE` is one at SP = 0, and names -1 (20_memory.md R54). -/
theorem addressError_popAddress {s : State} {a : Int} {pc : Word} (hsp : s.sp.toNat ≤ s.params.memSize)
    (h : AddressError s (popAddress s) (.addressOutOfRange a pc)) : s.sp.toNat = 0 ∧ a = -1 := by
  obtain ⟨hrange, he⟩ := h
  cases he
  rw [← Bool.not_eq_true, inRange_popAddress] at hrange
  have hzero : s.sp.toNat = 0 := by omega
  exact ⟨hzero, by simp [popAddress, hzero]⟩

/-- A failed access through a pointer names the pointer, which is not below MEM_SIZE (20_memory.md R54). -/
theorem addressError_pointerAddress {s : State} {p : Word} {a : Int} {pc : Word}
    (h : AddressError s (pointerAddress p) (.addressOutOfRange a pc)) : s.params.memSize ≤ p.toNat ∧ a = p.toNat := by
  obtain ⟨hrange, he⟩ := h
  cases he
  rw [← Bool.not_eq_true, inRange_pointerAddress] at hrange
  exact ⟨Nat.le_of_not_lt hrange, rfl⟩

/-- The range check of an execute phase with 4096 words fails for a full push, an empty pop and a pointer (20_memory.md R54). -/
theorem raises_address_cases {i : Instr} {s : State} {a : Int} {pc : Word} (hsize : s.params.memSize = 4096)
    (hsp : s.sp.toNat ≤ 4096) (h : Raises i s (.addressOutOfRange a pc)) :
    ((i = .push ∨ ∃ x, i = .call x) ∧ s.sp.toNat = 4096 ∧ a = 4096) ∨
    ((i = .ret ∨ ∃ x, i = .pop x) ∧ s.sp.toNat = 0 ∧ a = -1) ∨
    (∃ x, (i = .loadi x ∨ i = .storei x) ∧ 4096 ≤ (Memory.read s.mem x.toNat).toNat ∧
      a = (Memory.read s.mem x.toNat).toNat) := by
  have hdirect : ∀ {x : Operand}, ¬ AddressError s (directAddress x) (.addressOutOfRange a pc) :=
    not_addressError_directAddress hsize
  have hpush : AddressError s (pushAddress s) (.addressOutOfRange a pc) → s.sp.toNat = 4096 ∧ a = 4096 := by
    intro h
    obtain ⟨hfull, rfl⟩ := addressError_pushAddress h
    omega
  have hpop : AddressError s (popAddress s) (.addressOutOfRange a pc) → s.sp.toNat = 0 ∧ a = -1 :=
    addressError_popAddress (by omega)
  cases i with
  | input | output | halt | skipcond x | jmp x => exact h.elim
  | load x | store x => exact absurd h hdirect
  | add x | sub x =>
    rcases h with h | ⟨-, -, -, he⟩
    · exact absurd h hdirect
    · cases he
  | push => exact .inl ⟨.inl rfl, hpush h⟩
  | call x => exact .inl ⟨.inr ⟨x, rfl⟩, hpush h⟩
  | ret => exact .inr (.inl ⟨.inl rfl, hpop h⟩)
  | pop x =>
    rcases h with h | ⟨-, h⟩
    · exact .inr (.inl ⟨.inr ⟨x, rfl⟩, hpop h⟩)
    · exact absurd h hdirect
  | loadi x =>
    rcases h with h | ⟨-, h⟩
    · exact absurd h hdirect
    · exact .inr (.inr ⟨x, .inl rfl, hsize ▸ addressError_pointerAddress h⟩)
  | storei x =>
    rcases h with h | ⟨-, h⟩
    · exact absurd h hdirect
    · exact .inr (.inr ⟨x, .inr rfl, hsize ▸ addressError_pointerAddress h⟩)

/-- Settles O12: a step's AddressOutOfRange is that of its fetch or of its unit, and fetch leaves SP, memory and parameters. -/
theorem rangeCheckFailsOnlyInListedCases : Obligations.RangeCheckFailsOnlyInListedCases := by
  intro s t a pc hrun hsize hsp hstep he
  rcases step_error_cases hrun hstep he with ⟨hpc, hfetch, -⟩ | ⟨-, -, ⟨hunknown, -⟩ | ⟨i, ⟨-, hdecode, -⟩, hraises⟩⟩
  · cases hfetch
    exact .inl ⟨hsize ▸ hpc, rfl⟩
  · cases hunknown
  · exact .inr ⟨i, hdecode, raises_address_cases (s := s.fetched _) hsize hsp hraises⟩

/-- A completed instruction appends to the output only AC, and only as OUTPUT (10_state.md R36). -/
theorem effect_outputChannel {i : Instr} {s t : State} (h : Effect i s t) :
    t.outputChannel = s.outputChannel ∨ i = .output ∧ t.outputChannel = s.outputChannel ++ [s.ac] := by
  cases i with
  | output => subst h; exact .inr ⟨rfl, rfl⟩
  | input => obtain ⟨w, rest, -, rfl⟩ := h; exact .inl rfl
  | halt | jmp x => subst h; exact .inl rfl
  | skipcond x => rw [effect_skipcond h]; exact .inl rfl
  | load x | store x | call x | ret | push => obtain ⟨-, rfl⟩ := h; exact .inl rfl
  | add x | sub x | loadi x | storei x | pop x => obtain ⟨-, -, rfl⟩ := h; exact .inl rfl

/-- A completed instruction takes pending input only into AC, and only as INPUT (10_state.md R35). -/
theorem effect_inputChannel {i : Instr} {s t : State} (h : Effect i s t) :
    t.inputChannel = s.inputChannel ∨ i = .input ∧ ∃ w, s.inputChannel = w :: t.inputChannel ∧ t.ac = w := by
  cases i with
  | input => obtain ⟨w, rest, hc, rfl⟩ := h; exact .inr ⟨rfl, w, hc, rfl⟩
  | output | halt | jmp x => subst h; exact .inl rfl
  | skipcond x => rw [effect_skipcond h]; exact .inl rfl
  | load x | store x | call x | ret | push => obtain ⟨-, rfl⟩ := h; exact .inl rfl
  | add x | sub x | loadi x | storei x | pop x => obtain ⟨-, -, rfl⟩ := h; exact .inl rfl

/-- Settles O19: a stop keeps both channels, and a unit that completes moves one only under its own opcode. -/
theorem channelsMoveOnlyByInputAndOutput : Obligations.ChannelsMoveOnlyByInputAndOutput := by
  intro s t hrun hstep
  rcases step_next_cases hrun hstep with ⟨i, ⟨-, hdecode, -⟩, heff⟩ | ⟨u, e, rfl | rfl, rfl⟩
  · have hcode := opcodeField_of_decodeWord hdecode
    constructor
    · rcases effect_outputChannel heff with hkept | ⟨rfl, hout⟩
      · exact .inl hkept
      · exact .inr ⟨hcode, hout⟩
    · rcases effect_inputChannel heff with hkept | ⟨rfl, hin⟩
      · exact .inl hkept
      · exact .inr ⟨hcode, hin⟩
  · exact ⟨.inl rfl, .inl rfl⟩
  · exact ⟨.inl rfl, .inl rfl⟩

/-- A completed instruction that transfers no control leaves PC, but for a SKIPCOND whose condition holds, which adds one (10_state.md
R22). -/
theorem effect_pc {i : Instr} {s t : State} (h : Effect i s t) (hjmp : ∀ x, i ≠ .jmp x) (hcall : ∀ x, i ≠ .call x)
    (hret : i ≠ .ret) :
    ((∃ x, i = .skipcond x ∧ skips x s.ac = true) → t.pc = s.pc + 1) ∧
    (¬ (∃ x, i = .skipcond x ∧ skips x s.ac = true) → t.pc = s.pc) := by
  cases i with
  | jmp x => exact absurd rfl (hjmp x)
  | call x => exact absurd rfl (hcall x)
  | ret => exact absurd rfl hret
  | skipcond x =>
    rw [effect_skipcond h]
    constructor
    · rintro ⟨y, hy, hskips⟩
      cases hy
      exact if_pos hskips
    · intro hnot
      exact if_neg fun hskips => hnot ⟨x, rfl, hskips⟩
  | output | halt => subst h; exact ⟨nofun, fun _ => rfl⟩
  | input => obtain ⟨w, rest, -, rfl⟩ := h; exact ⟨nofun, fun _ => rfl⟩
  | load x | store x | push => obtain ⟨-, rfl⟩ := h; exact ⟨nofun, fun _ => rfl⟩
  | add x | sub x | loadi x | storei x | pop x => obtain ⟨-, -, rfl⟩ := h; exact ⟨nofun, fun _ => rfl⟩

/-- Settles O23: fetch adds one and a met SKIPCOND one more, and neither wraps, since PC was below MEM_SIZE, at most 4096. -/
theorem pcAdvancesByOneWithoutWrap : Obligations.PcAdvancesByOneWithoutWrap := by
  intro s t i hparams hrun hpc hdecode hwf hstep hsafe hjmp hcall hret
  have hsize := memSize_le_of_wf hparams
  have hone : (s.pc + 1).toNat = s.pc.toNat + 1 := toNat_add_one (by omega)
  have htwo : (s.pc + 1 + 1).toNat = s.pc.toNat + 2 := by rw [toNat_add_one (by omega), hone]
  rcases step_unit hrun ⟨hpc, hdecode, hwf⟩ hstep with heff | ⟨e, -, rfl⟩
  · obtain ⟨hmet, hother⟩ := effect_pc heff hjmp hcall hret
    constructor
    · intro h
      rw [hmet h]
      exact htwo
    · intro h
      rw [hother h]
      exact hone
  · cases hsafe

/-- Settles O24: HALT runs exactly on the words of its opcode, and it alone makes a Running engine Halted. -/
theorem onlyHaltHalts : Obligations.OnlyHaltHalts := by
  intro s t hrun hstep
  have hruns := runs_iff_of_not_usesOperand (s := s) (i := .halt) rfl
  refine Iff.trans ⟨fun hhalted => ?_, fun hi => ?_⟩ hruns
  · rcases step_next_cases hrun hstep with ⟨i, hi, heff⟩ | ⟨u, e, -, rfl⟩
    · rcases effect_run heff with hkept | ⟨rfl, -⟩
      · rw [State.fetched_run, hrun, hhalted] at hkept
        cases hkept
      · exact hi
    · cases hhalted
  · have hexec := (step_runs hrun hi).symm.trans hstep
    rw [exec_halt] at hexec
    cases hexec
    rfl

/-- Settles O27: the store writes AC where PC points next, and the fetch reads it there. -/
theorem storeIsSeenByTheNextFetch : Obligations.StoreIsSeenByTheNextFetch := by
  intro s x hparams hrun hnext hx hword henabled
  have hsize := memSize_le_of_wf hparams
  have hpc : (s.pc + 1).toNat = x.toNat := by rw [toNat_add_one (by omega), hnext]
  have hruns : Runs s (.store x) := ⟨by omega, by rw [hword, decodeWord_encode], henabled⟩
  obtain ⟨-, hstore, -⟩ := storeCopiesAcToMemory x (s.fetched (Memory.read s.mem s.pc.toNat))
  obtain ⟨t, hexec, hread, -, -, htpc, -, ⟨-, -, htrun, htparams⟩, -⟩ := hstore hx
  have hrange : t.pc.toNat < t.params.memSize := by
    rw [htpc, htparams]
    exact hpc ▸ hx
  have hfetched : Memory.read t.mem t.pc.toNat = s.ac := by
    rw [htpc]
    exact hpc ▸ hread
  refine ⟨t, (step_runs hrun hruns).trans hexec, htpc, htrun.trans hrun, ?_, fun i hi hwf => ?_⟩
  · rw [State.fetchWord_inRange hrange, hfetched]
  · have hwellFormed : i.wellFormed t.params = true := by
      rw [htparams]
      exact hwf
    rw [← hfetched] at hi ⊢
    exact step_runs (htrun.trans hrun) ⟨hrange, hi, hwellFormed⟩

end Sys2Proof.Machine

/-! The two access operations (20_memory.md R53) and the form of the array that writes keep. -/

namespace Sys2Proof.Machine

theorem inRange_eq_false {s : State} {a : Int} (h : a < 0 ∨ (s.params.memSize : Int) ≤ a) : s.inRange a = false := by
  rw [← Bool.not_eq_true, State.inRange_iff]
  omega

/-- Settles O26: the read and the write by the two outcomes of the range check, and the fetch by its own. -/
theorem everyAccessIsRangeChecked : Obligations.EveryAccessIsRangeChecked := by
  intro s a v
  refine ⟨fun hout => ?_, fun hin => ?_, fun hrun hpc => ?_⟩
  · have hrange := inRange_eq_false hout
    exact ⟨fun k => ⟨_, _, onRead_outOfRange k hrange, rfl, fun _ => rfl⟩,
      fun k => ⟨_, _, onWrite_outOfRange v k hrange, rfl, fun _ => rfl⟩⟩
  · have hrange := (State.inRange_iff s a).2 hin
    exact ⟨fun k => onRead_inRange k hrange, fun k => ⟨_, onWrite_inRange v k hrange,
      Memory.read_write_same s.mem a.toNat v, fun _ hb => Memory.read_write_other s.mem v hb⟩⟩
  · exact ⟨_, _, step_fetchFails hrun hpc, rfl, fun _ => rfl⟩

/-- Settles O51: the canonical form is kept, and writing back the word already there gives an array that reads alike, so the same data. -/
theorem writesKeepTheCanonicalMemory : Obligations.WritesKeepTheCanonicalMemory := by
  refine ⟨fun m a v hm => ⟨Memory.wf_write a v hm, ?_⟩, fun m a ws hm => Memory.wf_writeAll a ws hm,
    fun m m' hm hm' hread => Memory.ext_wf hm hm' hread⟩
  exact Memory.ext_wf (Memory.wf_write a _ hm) hm (Memory.read_write_read_same m a)

end Sys2Proof.Machine

/-! INPUT (42_io_halt.md R130): it takes the first pending word, and waits where there is none. -/

namespace Sys2Proof.Machine

theorem exec_input_pending {s : State} {w : Word} {rest : List Word} (h : s.inputChannel = w :: rest) :
    exec .input s = .next ((s.latchInput w rest).setAc w).scratchMbr := by
  simp only [exec, execInput, h, complete_eq]

/-- Settles O32: the completed state, in which only AC and the input side moved (MBR aside). -/
theorem inputTakesTheFirstPendingWord : Obligations.InputTakesTheFirstPendingWord := by
  intro s w rest hc
  exact ⟨_, exec_input_pending hc, rfl, rfl, rfl, rfl, rfl, rfl, rfl, ⟨rfl, rfl, rfl, rfl⟩, fun _ => rfl⟩

/-- Settles O33: the step that waits, and the step of the same INPUT once the appended word is the first one pending. -/
theorem inputWaitsForAWord : Obligations.InputWaitsForAWord := by
  intro s hrun hpc hcode henabled hc
  have hruns : Runs s .input := (runs_iff_of_not_usesOperand rfl).2 ⟨hpc, hcode, henabled⟩
  have hsupplied (w : Word) : (s.supplyInput w).inputChannel = [w] := by simp [hc]
  refine ⟨step_waits hrun hruns hc, fun w => ?_, fun w => ?_⟩
  · rw [State.supplyInput, hc]
    rfl
  · have hstep := (step_runs (s := s.supplyInput w) hrun hruns).trans (exec_input_pending (hsupplied w))
    exact ⟨_, hstep, rfl, rfl, rfl, rfl, hrun⟩

end Sys2Proof.Machine

/-! RET, LOADI, STOREI and POP (43_control.md R143, 44_indirect.md R150, R151, 45_stack.md R161): the word read first decides where the
second access goes, and both addresses are checked before anything is written. -/

namespace Sys2Proof.Machine

theorem inRange_popAddress_eq_false {s : State} (h : s.sp.toNat = 0) : s.inRange (popAddress s) = false := by
  rw [← Bool.not_eq_true, inRange_popAddress]
  omega

theorem popAddress_of_sp_zero {s : State} (h : s.sp.toNat = 0) : popAddress s = -1 := by
  simp [popAddress, h]

/-- A pop with SP in `1 .. MEM_SIZE` reads the word below SP (10_state.md R27). -/
theorem onRead_popAddress_inRange {s : State} (k : Word → Result) (hpos : 0 < s.sp.toNat)
    (hsp : s.sp.toNat ≤ s.params.memSize) :
    onRead s (popAddress s) k = k (Memory.read s.mem (s.sp.toNat - 1)) := by
  rw [onRead_inRange k ((inRange_popAddress s).2 ⟨hpos, hsp⟩), popAddress_toNat]

/-- A pop from the empty stack raises on the address -1 (20_memory.md R54). -/
theorem onRead_popAddress_empty {s : State} (k : Word → Result) (h : s.sp.toNat = 0) :
    onRead s (popAddress s) k = raise (.addressOutOfRange (-1) s.instrPc) s := by
  rw [onRead_outOfRange k (inRange_popAddress_eq_false h), popAddress_of_sp_zero h]

/-- The state RET leaves when the stack holds a word: PC at the word, SP at its slot. -/
def State.returned (s : State) : State :=
  ((s.setPc (Memory.read s.mem (s.sp.toNat - 1))).setSp (s.sp - 1)).scratchMarMbr

theorem exec_ret_inRange {s : State} (hpos : 0 < s.sp.toNat) (hsp : s.sp.toNat ≤ s.params.memSize) :
    exec .ret s = .next s.returned :=
  onRead_popAddress_inRange (fun w => completeTransfer ((s.setPc w).setSp (s.sp - 1))) hpos hsp

theorem exec_ret_empty {s : State} (h : s.sp.toNat = 0) :
    exec .ret s = raise (.addressOutOfRange (-1) s.instrPc) s :=
  onRead_popAddress_empty (fun w => completeTransfer ((s.setPc w).setSp (s.sp - 1))) h

/-- Settles O39: the pop into PC, the fetch that fails at a popped address outside the memory, and the stop on the empty stack. -/
theorem retPopsPc : Obligations.RetPopsPc := by
  intro s
  refine ⟨fun hpos hsp => ?_, fun hempty => stopsOnAddress_of_exec_eq_raise (exec_ret_empty hempty)⟩
  exact ⟨_, exec_ret_inRange hpos hsp, rfl, rfl, rfl, rfl, rfl, rfl, fun _ => rfl, ⟨rfl, rfl, rfl, rfl⟩,
    fun hout => failsAtNextFetch_of_memSize_le_pc hout⟩

theorem inRange_pointerAddress_eq_false {s : State} {p : Word} (h : s.params.memSize ≤ p.toNat) :
    s.inRange (pointerAddress p) = false := by
  rw [← Bool.not_eq_true, inRange_pointerAddress]
  exact h.not_gt

/-- An operand in range is dereferenced to the pointer word there (44_indirect.md R150). -/
theorem onPointer_inRange {s : State} {x : Operand} (k : Int → Result) (h : x.toNat < s.params.memSize) :
    onPointer s x k = k (pointerAddress (Memory.read s.mem x.toNat)) :=
  onRead_inRange (fun p => k (pointerAddress p)) ((inRange_directAddress s x).2 h)

/-- An operand outside the memory is the first access to fail. -/
theorem onPointer_outOfRange {s : State} {x : Operand} (k : Int → Result) (h : s.params.memSize ≤ x.toNat) :
    onPointer s x k = raise (.addressOutOfRange (directAddress x) s.instrPc) s :=
  onRead_outOfRange (fun p => k (pointerAddress p)) (inRange_directAddress_eq_false h)

theorem exec_loadi_pointer {x : Operand} {s : State} (hx : x.toNat < s.params.memSize) :
    exec (.loadi x) s = onRead s (pointerAddress (Memory.read s.mem x.toNat)) fun w => complete (s.setAc w) :=
  onPointer_inRange (fun ea => onRead s ea fun w => complete (s.setAc w)) hx

theorem exec_storei_pointer {x : Operand} {s : State} (hx : x.toNat < s.params.memSize) :
    exec (.storei x) s = onWrite s (pointerAddress (Memory.read s.mem x.toNat)) s.ac fun t => complete t :=
  onPointer_inRange (fun ea => onWrite s ea s.ac fun t => complete t) hx

theorem exec_loadi_outOfRange {x : Operand} {s : State} (hx : s.params.memSize ≤ x.toNat) :
    exec (.loadi x) s = raise (.addressOutOfRange (directAddress x) s.instrPc) s :=
  onPointer_outOfRange (fun ea => onRead s ea fun w => complete (s.setAc w)) hx

theorem exec_storei_outOfRange {x : Operand} {s : State} (hx : s.params.memSize ≤ x.toNat) :
    exec (.storei x) s = raise (.addressOutOfRange (directAddress x) s.instrPc) s :=
  onPointer_outOfRange (fun ea => onWrite s ea s.ac fun t => complete t) hx

/-- Settles O40: the load through the pointer, and the stop on the pointer or on the operand. -/
theorem loadiLoadsThroughThePointer : Obligations.LoadiLoadsThroughThePointer := by
  intro x s
  refine ⟨fun hx hp => ?_, fun hx hp => ?_, fun hx => ?_⟩
  · have hread := onRead_inRange (fun w => complete (s.setAc w)) ((inRange_pointerAddress s _).2 hp)
    exact ⟨_, (exec_loadi_pointer hx).trans hread, rfl, rfl, rfl, ⟨rfl, rfl, rfl, rfl⟩, fun _ => rfl, ⟨rfl, rfl, rfl, rfl⟩⟩
  · exact stopsOnAddress_of_exec_eq_raise
      ((exec_loadi_pointer hx).trans (onRead_outOfRange _ (inRange_pointerAddress_eq_false hp)))
  · exact stopsOnAddress_of_exec_eq_raise (exec_loadi_outOfRange hx)

/-- Settles O41: the row of R72, the store through the pointer by the array's read-after-write laws, and the stop on the pointer or on the
operand. -/
theorem storeiStoresThroughThePointer : Obligations.StoreiStoresThroughThePointer := by
  intro x s
  refine ⟨decodeWord_of_pattern 0xD x (.storei x) rfl rfl fun _ => rfl, fun hx hp => ?_, fun hx hp => ?_, fun hx => ?_⟩
  · have hwrite := onWrite_inRange s.ac complete ((inRange_pointerAddress s _).2 hp)
    exact ⟨_, (exec_storei_pointer hx).trans hwrite, Memory.read_write_same s.mem _ s.ac, keepsMemoryBut_writeMem s _ s.ac,
      rfl, rfl, rfl, ⟨rfl, rfl, rfl, rfl⟩, ⟨rfl, rfl, rfl, rfl⟩⟩
  · exact stopsOnAddress_of_exec_eq_raise
      ((exec_storei_pointer hx).trans (onWrite_outOfRange s.ac _ (inRange_pointerAddress_eq_false hp)))
  · exact stopsOnAddress_of_exec_eq_raise (exec_storei_outOfRange hx)

/-- The state POP leaves when the stack holds a word and the operand is in range: the word copied, SP at its slot. -/
def State.popped (s : State) (x : Operand) : State :=
  ((s.writeMem x.toNat (Memory.read s.mem (s.sp.toNat - 1))).setSp (s.sp - 1)).scratchMbr

theorem exec_pop_empty {x : Operand} {s : State} (h : s.sp.toNat = 0) :
    exec (.pop x) s = raise (.addressOutOfRange (-1) s.instrPc) s :=
  onRead_popAddress_empty (fun w => onWrite s (directAddress x) w fun t => complete (t.setSp (s.sp - 1))) h

theorem exec_pop_nonempty {x : Operand} {s : State} (hpos : 0 < s.sp.toNat) (hsp : s.sp.toNat ≤ s.params.memSize) :
    exec (.pop x) s = onWrite s (directAddress x) (Memory.read s.mem (s.sp.toNat - 1)) fun t =>
      complete (t.setSp (s.sp - 1)) :=
  onRead_popAddress_inRange
    (fun w => onWrite s (directAddress x) w fun t => complete (t.setSp (s.sp - 1))) hpos hsp

theorem exec_pop_inRange {x : Operand} {s : State} (hpos : 0 < s.sp.toNat) (hsp : s.sp.toNat ≤ s.params.memSize)
    (hx : x.toNat < s.params.memSize) : exec (.pop x) s = .next (s.popped x) :=
  (exec_pop_nonempty hpos hsp).trans (onWrite_inRange _ _ ((inRange_directAddress s x).2 hx))

/-- A word is popped to the operand address, and every other word stays (45_stack.md R161). -/
theorem read_popped (s : State) (x : Operand) (b : Nat) :
    Memory.read (s.popped x).mem b = if b = x.toNat then Memory.read s.mem (s.sp.toNat - 1) else Memory.read s.mem b :=
  Memory.read_write s.mem x.toNat b _

/-- Settles O43: the pop in range, the stop on the empty stack, which is checked first, and the stop on the operand. -/
theorem popStoresTheTopOfTheStack : Obligations.PopStoresTheTopOfTheStack := by
  intro x s
  refine ⟨fun hpos hsp hx => ?_, fun hempty => ?_, fun hpos hsp hx => ?_⟩
  · have hdestination : Memory.read (s.popped x).mem x.toNat = Memory.read s.mem (s.sp.toNat - 1) :=
      Memory.read_write_same s.mem x.toNat _
    have hmemory : KeepsMemoryBut (directAddress x).toNat s (s.popped x) := fun _ hb => Memory.read_write_other s.mem _ hb
    exact ⟨_, exec_pop_inRange hpos hsp hx, hdestination, hmemory, rfl, rfl, rfl, ⟨rfl, rfl, rfl, rfl⟩,
      ⟨rfl, rfl, rfl, rfl⟩⟩
  · exact stopsOnAddress_of_exec_eq_raise (exec_pop_empty hempty)
  · exact stopsOnAddress_of_exec_eq_raise
      ((exec_pop_nonempty hpos hsp).trans (onWrite_outOfRange _ _ (inRange_directAddress_eq_false hx)))

end Sys2Proof.Machine

/-! The stack (45_stack.md R162, 43_control.md R144): a push and the pop that undoes it, with fetches between them. -/

namespace Sys2Proof.Machine

/-- A word is pushed to the slot at SP, and every other word stays (45_stack.md R160). -/
theorem read_pushed (s : State) (b : Nat) :
    Memory.read s.pushed.mem b = if b = s.sp.toNat then s.ac else Memory.read s.mem b :=
  Memory.read_write s.mem s.sp.toNat b s.ac

/-- Lowering SP undoes raising it. -/
theorem sp_sub_one_of_eq_add_one {v w : Word} (h : v = w + 1) : v - 1 = w := by
  rw [h, BitVec.add_sub_cancel]

/-- A pop where SP stands one above the slot `w` takes the word of that slot and leaves SP there. -/
theorem exec_pop_above {x : Operand} {u : State} {w : Word} (hsp : u.sp = w + 1) (hsize : u.params.memSize ≤ 4096)
    (hroom : w.toNat < u.params.memSize) (hx : x.toNat < u.params.memSize) :
    exec (.pop x) u = .next (u.popped x) ∧ (u.popped x).sp = w ∧
      ∀ b, Memory.read (u.popped x).mem b = if b = x.toNat then Memory.read u.mem w.toNat else Memory.read u.mem b := by
  have hspNat : u.sp.toNat = w.toNat + 1 := by rw [hsp, toNat_add_one (by omega)]
  refine ⟨exec_pop_inRange (by omega) (by omega) hx, ?_, fun b => ?_⟩
  · exact sp_sub_one_of_eq_add_one hsp
  · rw [read_popped, hspNat, Nat.add_sub_cancel]

/-- Settles O44: the pop finds SP one above the pushed slot and takes the word of that slot. -/
theorem popAfterPushRestoresSpAndAc : Obligations.PopAfterPushRestoresSpAndAc := by
  rintro s w x ⟨hparams, -, -, -⟩ hroom hx
  obtain ⟨hpop, hsp, hread⟩ := exec_pop_above (u := s.pushed.fetched w) (w := s.sp) rfl (memSize_le_of_wf hparams) hroom hx
  refine ⟨s.pushed, _, exec_push_inRange hroom, hpop, hsp, rfl, ?_, fun b hbx hbsp => ?_⟩
  · rw [hread, if_pos rfl, State.fetched_mem, read_pushed, if_pos rfl]
  · rw [hread, if_neg hbx, State.fetched_mem, read_pushed, if_neg hbsp]

/-- A second push, from any state `u` with the SP and the memory that the first push left, and two pops: the first pop takes the upper slot,
and the second finds the lower one as it was, since the first destination is another word. -/
theorem pops_reverse_pushes {s u : State} {x y : Operand} (w2 w3 : Word) (husp : u.sp = s.sp + 1)
    (humem : u.mem = s.pushed.mem) (hsize : u.params.memSize ≤ 4096) (hroom : s.sp.toNat + 1 < u.params.memSize)
    (hx : x.toNat < u.params.memSize) (hy : y.toNat < u.params.memSize) (hxsp : x.toNat ≠ s.sp.toNat) (hxy : x ≠ y) :
    ∃ t3 t4, exec .push u = .next u.pushed ∧ exec (.pop x) (u.pushed.fetched w2) = .next t3 ∧
      exec (.pop y) (t3.fetched w3) = .next t4 ∧
      t4.sp = s.sp ∧ Memory.read t4.mem x.toNat = u.ac ∧ Memory.read t4.mem y.toNat = s.ac := by
  have hupper : u.sp.toNat = s.sp.toNat + 1 := by rw [husp, toNat_add_one (by omega)]
  have huroom : u.sp.toNat < u.params.memSize := hupper ▸ hroom
  have hlower : s.sp.toNat < u.params.memSize := by omega
  have hslots : s.sp.toNat ≠ u.sp.toNat := by omega
  have hxyNat : x.toNat ≠ y.toNat := fun h => hxy (BitVec.eq_of_toNat_eq h)
  obtain ⟨hpop1, hsp1, hread1⟩ := exec_pop_above (u := u.pushed.fetched w2) (w := u.sp) rfl hsize huroom hx
  obtain ⟨hpop2, hsp2, hread2⟩ :=
    exec_pop_above (u := ((u.pushed.fetched w2).popped x).fetched w3) (w := s.sp) (hsp1.trans husp) hsize hlower hy
  refine ⟨_, _, exec_push_inRange huroom, hpop1, hpop2, hsp2, ?_, ?_⟩
  · rw [hread2, if_neg hxyNat, State.fetched_mem, hread1, if_pos rfl, State.fetched_mem, read_pushed, if_pos rfl]
  · rw [hread2, if_pos rfl, State.fetched_mem, hread1, if_neg hxsp.symm, State.fetched_mem, read_pushed, if_neg hslots,
      humem, read_pushed, if_pos rfl]

/-- Settles O45: fetch and a new AC between the pushes leave SP and memory. -/
theorem stackIsLastInFirstOut : Obligations.StackIsLastInFirstOut := by
  rintro s v w1 w2 w3 x y ⟨hparams, -, -, -⟩ hroom hx hy hxsp hxy
  obtain ⟨t3, t4, hrest⟩ := pops_reverse_pushes (s := s) (u := (s.pushed.fetched w1).setAc v) w2 w3 rfl rfl
    (memSize_le_of_wf hparams) hroom hx hy hxsp hxy
  exact ⟨s.pushed, _, t3, t4, exec_push_inRange (Nat.lt_of_succ_lt hroom), hrest⟩

/-- Settles O46: RET finds SP one above the slot that CALL filled, and that slot still holds the return address. -/
theorem retReturnsToTheInstructionAfterCall : Obligations.RetReturnsToTheInstructionAfterCall := by
  rintro s u x ⟨hparams, -, -, -⟩ hroom
  have hsize := memSize_le_of_wf hparams
  refine ⟨s.called x, exec_call_inRange hroom, fun hsp hkept hstack => ?_⟩
  have husp : u.sp = s.sp + 1 := hsp
  have huspNat : u.sp.toNat = s.sp.toNat + 1 := by rw [husp, toNat_add_one (by omega)]
  have husize : u.params.memSize = s.params.memSize := congrArg Params.memSize hkept
  have hpushed : Memory.read (s.called x).mem s.sp.toNat = s.pc := Memory.read_write_same s.mem s.sp.toNat s.pc
  have hpc : u.returned.pc = s.pc := by
    have htop : u.returned.pc = Memory.read u.mem (u.sp.toNat - 1) := rfl
    rw [htop, huspNat, Nat.add_sub_cancel, hstack, hpushed]
  exact ⟨u.returned, exec_ret_inRange (by omega) (by omega), hpc, sp_sub_one_of_eq_add_one husp, rfl, fun _ => rfl⟩

end Sys2Proof.Machine

/-! Reset, initialisation and loading (10_state.md R38, 70_reset_and_hazards.md R200 to R204). -/

namespace Sys2Proof.Machine

/-- With the default parameters every instruction is enabled (00_scope.md R6, 30_encoding.md R77). -/
theorem wellFormed_hardware (i : Instr) : i.wellFormed Params.hardware = true :=
  List.contains_iff_mem.2 (mem_opcode_all i.opcode)

/-- Settles O48: the stated values one by one, and every opcode among the default ENABLED_OPCODES. -/
theorem resetLeavesTheStatedValues : Obligations.ResetLeavesTheStatedValues :=
  ⟨rfl, rfl, rfl, rfl, fun _ => rfl, rfl, rfl, rfl, rfl, wellFormed_hardware⟩

/-- STACK_BASE and START_ADDRESS lie in the memory, STACK_BASE or just above it (00_scope.md R7). -/
theorem bases_of_wf {p : Params} (h : p.wf = true) : p.stackBase ≤ p.memSize ∧ p.startAddress < p.memSize := by
  simp only [Params.wf, Bool.and_eq_true, decide_eq_true_eq] at h
  obtain ⟨⟨⟨-, hbase⟩, hstart⟩, -⟩ := h
  exact ⟨hbase, hstart⟩

/-- A word address or MEM_SIZE itself is held by a register as it is. -/
theorem toNat_ofNat_of_le {a n : Nat} (ha : a ≤ n) (hn : n ≤ 4096) : (BitVec.ofNat 16 a).toNat = a := by
  rw [BitVec.toNat_ofNat, Nat.mod_eq_of_lt (by omega)]

/-- Initialisation sets SP to STACK_BASE, exactly (70_reset_and_hazards.md R200). -/
theorem initialise_sp_toNat {s : State} (h : s.params.wf = true) : s.initialise.sp.toNat = s.params.stackBase :=
  toNat_ofNat_of_le (bases_of_wf h).1 (memSize_le_of_wf h)

/-- Settles O49: each field that initialisation sets depends on the parameters alone, which it keeps. -/
theorem initialiseZeroesTheMemory : Obligations.InitialiseZeroesTheMemory :=
  fun _ hparams => ⟨fun _ => rfl, initialise_sp_toNat hparams, rfl, rfl, rfl, rfl, rfl, rfl, rfl, rfl⟩

/-- The state of a started engine: initialised, the buffer copied from START_ADDRESS on, PC there. -/
def State.started (s : State) (buffer : List Word) : State :=
  { s.initialise with
    mem := Memory.writeAll [] s.params.startAddress buffer
    pc := BitVec.ofNat 16 s.params.startAddress }

theorem start_fits {s : State} {buffer : List Word} (h : s.params.startAddress + buffer.length ≤ s.params.memSize) :
    s.start buffer = .next (s.started buffer) :=
  if_pos h

theorem start_refused {s : State} {buffer : List Word} (h : s.params.memSize < s.params.startAddress + buffer.length) :
    s.start buffer = .refused .programDoesNotFit :=
  if_neg h.not_ge

/-- Settles O50: the loader's words read back in their places, zero elsewhere, in the engine that initialisation left. -/
theorem loadCopiesTheBuffer : Obligations.LoadCopiesTheBuffer := by
  intro s buffer hparams
  obtain ⟨-, hstart⟩ := bases_of_wf hparams
  refine ⟨fun hfits => ?_, start_refused⟩
  refine ⟨s.started buffer, start_fits hfits, toNat_ofNat_of_le hstart.le (memSize_le_of_wf hparams),
    initialise_sp_toNat hparams, rfl, rfl, fun n h => Memory.read_writeAll_add [] _ buffer n h, fun a ha => ?_⟩
  have hout : ¬ (s.params.startAddress ≤ a ∧ a - s.params.startAddress < buffer.length) := by omega
  exact (Memory.read_writeAll [] s.params.startAddress buffer a).trans (dif_neg hout)

/-- Settles O15: a started engine's buffer fitted, so the loader wrote a canonical array inside the memory, and SP is STACK_BASE. -/
theorem startedEngineMeetsTheInvariant : Obligations.StartedEngineMeetsTheInvariant := by
  intro s t buffer hparams hstarted
  rcases Nat.lt_or_ge s.params.memSize (s.params.startAddress + buffer.length) with hlarge | hfits
  · cases (start_refused hlarge).symm.trans hstarted
  · cases (start_fits hfits).symm.trans hstarted
    have hwf : Memory.wf (s.started buffer).mem = true := Memory.wf_writeAll s.params.startAddress buffer Memory.wf_nil
    have hbelow : Memory.below s.params.memSize (s.started buffer).mem = true :=
      Memory.below_writeAll buffer hfits (Memory.below_nil s.params.memSize)
    have hsp : (s.started buffer).sp.toNat ≤ s.params.memSize := (initialise_sp_toNat hparams).trans_le (bases_of_wf hparams).1
    exact ⟨⟨hparams, hwf, hbelow, hsp⟩, rfl⟩

end Sys2Proof.Machine
